-- ==== Sys2Proof/Word.lean ====
section
/-! DEFINITION. The two word sizes of the machine (R2): an 8-bit datapath and 16-bit addresses. -/

namespace Sys2Proof

/-- A data value: registers `A` and `B`, a memory cell, an output value, an opcode (R2, R8). -/
abbrev Byte := BitVec 8

/-- An address: `PC` and everything that names a memory cell (R2, R8). -/
abbrev Addr := BitVec 16

/-- The 16-bit operand of an instruction: an immediate, an address or ignored, by the instruction
(R52, R53). It has the width of an address and is used as one without conversion. -/
abbrev Operand := BitVec 16

end Sys2Proof
end

