-- ==== Sys2Proof/Config.lean ====
section
/-! DEFINITION. What is fixed for the machine and no program changes (R7): the parameters, and the
ten rows of the Instruction Set Table by name (R54). The spec leaves no value of the core open, so
there is no free value here. -/

namespace Sys2Proof

namespace Config

/-- `MEM_SIZE`: the number of memory cells (R7, R17). -/
def memSize : Nat := 65536

/-- `ILEN`: every instruction is this many bytes long (R7, R50). -/
def instrBytes : Nat := 3

/-- `RESET_PC`: where execution begins (R7, R161). -/
def resetPc : Addr := 0

/-- `LOAD_BASE`: the address of the first byte the loader writes (R7, R165). -/
def loadBase : Nat := 0

/-- What every cell holds at reset, hence what a cell nobody has written reads as (R17, U9). -/
def resetByte : Byte := 0

/-- The default of `MAX_STEPS`, the one open parameter, which is an argument of a run (R7, D20). -/
def defaultMaxSteps : Nat := 100000

end Config

/-- The ten mnemonics of the Instruction Set Table (R54), as the enumeration decision D11 advises.
Their spellings and opcode bytes are in `Decode.lean`. -/
inductive Mnemonic where
  | LDA | LDB | LDA_MEM | STA | ADD | SUB | JMP | JZ | OUT | HLT
  deriving DecidableEq, Repr

end Sys2Proof
end

