-- ==== Sys2Proof/Syntax.lean ====
section
/-! DEFINITION. The instructions of the machine (R54), one constructor for each row of the opcode
table, and the assembly-level pairs the loader reads (R60). -/

namespace Sys2Proof

/-- One instruction. Every instruction carries its 16-bit operand, also the four that ignore it:
the two bytes are encoded "as given" and every value is legal there (R58), so an instruction and
its three bytes determine each other (R62). -/
inductive Instr where
  /-- Load the low byte of the operand into `A` (R85). -/
  | lda (operand : Operand)
  /-- Load the low byte of the operand into `B` (R86). -/
  | ldb (operand : Operand)
  /-- Load the byte at the operand's address into `A` (R87). -/
  | ldaMem (operand : Operand)
  /-- Store `A` at the operand's address (R88). -/
  | sta (operand : Operand)
  /-- Add `B` to `A` (R95). -/
  | add (operand : Operand)
  /-- Subtract `B` from `A` (R96). -/
  | sub (operand : Operand)
  /-- Jump to the operand (R105). -/
  | jmp (operand : Operand)
  /-- Jump to the operand if `Z` is true (R106). -/
  | jz (operand : Operand)
  /-- Append `A` to the output (R115). -/
  | out (operand : Operand)
  /-- Halt (R116). -/
  | hlt (operand : Operand)
  deriving DecidableEq, Repr

/-- One pair of an assembly-level program: a mnemonic as the host spells it and an operand, which
may be omitted (R60). The operand is a natural number here because the host may supply one that is
out of range, which the loader refuses (R169). -/
structure SourcePair where
  mnemonic : String
  operand  : Option Nat := none
  deriving DecidableEq, Repr

/-- An assembly-level program (R60). -/
abbrev SourceProgram := List SourcePair

end Sys2Proof
end

