-- ==== Sys2Proof/WellFormed.lean ====
section
/-! DEFINITION. What the spec asks of an instruction and of a program handed to the loader. -/

namespace Sys2Proof

/-- Is the instruction well formed? Always: "every one of the 65536 operand values is legal with
every legal opcode" (R55), and the type of the operand holds exactly those. -/
def Instr.wf : Instr → Bool
  | .lda _ | .ldb _ | .ldaMem _ | .sta _ | .add _ | .sub _ | .jmp _ | .jz _ | .out _ | .hlt _ => true

/-- The ten identifiers of R54, spelled as there; matching is exact (R60, D11). -/
def mnemonicSpellings : List String :=
  ["LDA", "LDB", "LDA_MEM", "STA", "ADD", "SUB", "JMP", "JZ", "OUT", "HLT"]

namespace SourcePair

/-- The mnemonic is in the Instruction Set Table (R60, R168). -/
def mnemonicKnown (p : SourcePair) : Bool := mnemonicSpellings.contains p.mnemonic

/-- The operand, if given, is in 0..65535 (R169). -/
def operandFits (p : SourcePair) : Bool :=
  match p.operand with
  | none => true
  | some v => decide (v ≤ 65535)

/-- A pair the loader accepts. -/
def wf (p : SourcePair) : Bool := p.mnemonicKnown && p.operandFits

end SourcePair

namespace SourceProgram

/-- The image of the program, `3n + 1` bytes, fits in memory without wrapping (R169). -/
def fits (p : SourceProgram) : Bool :=
  decide (Config.instrBytes * p.length + 1 ≤ Config.memSize)

/-- A program the loader accepts. -/
def wf (p : SourceProgram) : Bool := p.all SourcePair.wf && fits p

end SourceProgram

end Sys2Proof
end

