-- ==== Sys2Proof/Decode.lean ====
section
/-! DEFINITION. The Instruction Set Table (R54), decoding (R55, R52) and, from the same table, the
encoder (R62). Decoding is total on any bytes and rejects by name. -/

namespace Sys2Proof

namespace Mnemonic

/-- From mnemonic to opcode byte: the table of R54 read one way. -/
def opcode : Mnemonic → Byte
  | .LDA => 0x01
  | .LDB => 0x02
  | .LDA_MEM => 0x03
  | .STA => 0x04
  | .ADD => 0x05
  | .SUB => 0x06
  | .JMP => 0x07
  | .JZ => 0x08
  | .OUT => 0x09
  | .HLT => 0xFF

/-- `decode` of R55: from opcode byte to mnemonic, `none` for the 246 illegal values (R56). -/
def ofOpcode (b : Byte) : Option Mnemonic :=
  if b = 0x01 then some .LDA
  else if b = 0x02 then some .LDB
  else if b = 0x03 then some .LDA_MEM
  else if b = 0x04 then some .STA
  else if b = 0x05 then some .ADD
  else if b = 0x06 then some .SUB
  else if b = 0x07 then some .JMP
  else if b = 0x08 then some .JZ
  else if b = 0x09 then some .OUT
  else if b = 0xFF then some .HLT
  else none

/-- The spelling of a mnemonic (R54, R60). -/
def name : Mnemonic → String
  | .LDA => "LDA"
  | .LDB => "LDB"
  | .LDA_MEM => "LDA_MEM"
  | .STA => "STA"
  | .ADD => "ADD"
  | .SUB => "SUB"
  | .JMP => "JMP"
  | .JZ => "JZ"
  | .OUT => "OUT"
  | .HLT => "HLT"

/-- From a spelling to the mnemonic, exact match (R60, D11). -/
def ofName (s : String) : Option Mnemonic :=
  if s = "LDA" then some .LDA
  else if s = "LDB" then some .LDB
  else if s = "LDA_MEM" then some .LDA_MEM
  else if s = "STA" then some .STA
  else if s = "ADD" then some .ADD
  else if s = "SUB" then some .SUB
  else if s = "JMP" then some .JMP
  else if s = "JZ" then some .JZ
  else if s = "OUT" then some .OUT
  else if s = "HLT" then some .HLT
  else none

/-- The instruction a mnemonic and an operand make (R62). -/
def instr : Mnemonic → Operand → Instr
  | .LDA => .lda
  | .LDB => .ldb
  | .LDA_MEM => .ldaMem
  | .STA => .sta
  | .ADD => .add
  | .SUB => .sub
  | .JMP => .jmp
  | .JZ => .jz
  | .OUT => .out
  | .HLT => .hlt

end Mnemonic

namespace Instr

/-- The mnemonic of an instruction (R54). -/
def mnemonic : Instr → Mnemonic
  | .lda _ => .LDA
  | .ldb _ => .LDB
  | .ldaMem _ => .LDA_MEM
  | .sta _ => .STA
  | .add _ => .ADD
  | .sub _ => .SUB
  | .jmp _ => .JMP
  | .jz _ => .JZ
  | .out _ => .OUT
  | .hlt _ => .HLT

/-- The operand of an instruction. -/
def operand : Instr → Operand
  | .lda v | .ldb v | .ldaMem v | .sta v | .add v | .sub v | .jmp v | .jz v | .out v | .hlt v => v

end Instr

/-- `operand[7:0]`, the byte at the lower address (R31, R51). -/
def lowByte (v : Operand) : Byte := v.setWidth 8

/-- `operand[15:8]`, the byte at the next address (R31, R51). -/
def highByte (v : Operand) : Byte := (v >>> 8).setWidth 8

/-- Operand assembly, low byte first: `lo + 256 * hi` (R52). -/
def assembleOperand (lo hi : Byte) : Operand := BitVec.ofNat 16 (lo.toNat + 256 * hi.toNat)

/-- Why bytes are no instruction. -/
inductive Reject where
  /-- The opcode byte is one of the 246 illegal values (R56). -/
  | unknownOpcode (opcode : Byte)
  /-- The list ends before the three bytes of an instruction (R50). Memory never does this: its
  addresses wrap (R37). -/
  | truncated
  deriving DecidableEq, Repr

/-- The first instruction of a list of bytes, with the bytes after it. The opcode byte alone
decides (R55), so an illegal one is rejected before the operand bytes are looked at (R73). -/
def decode : List Byte → Except Reject (Instr × List Byte)
  | [] => .error .truncated
  | b :: rest =>
    match Mnemonic.ofOpcode b with
    | none => .error (.unknownOpcode b)
    | some m =>
      match rest with
      | lo :: hi :: rest' => .ok (m.instr (assembleOperand lo hi), rest')
      | _ => .error .truncated

/-- The three bytes of an instruction: opcode, operand low byte, operand high byte (R62, R51). -/
def encode (i : Instr) : List Byte :=
  [i.mnemonic.opcode, lowByte i.operand, highByte i.operand]

/-- Byte `k` of the low `nbits` bits of `w`, bit 0 of `w` being bit 0 of byte 0: the numbering of
the 24-bit word `W` of R51. -/
def tableByte (nbits w k : Nat) : Byte := BitVec.ofNat 8 ((w % 2 ^ nbits) / 256 ^ k)

/-- The three bytes of an instruction given as the word `W` of R51. -/
def tableBytes (nbits w : Nat) : List Byte :=
  [tableByte nbits w 0, tableByte nbits w 1, tableByte nbits w 2]

/-- The instruction the decoder reads from the word `W` of R51. -/
def decodeTableWord (nbits w : Nat) : Option Instr :=
  match decode (tableBytes nbits w) with
  | .ok (i, _) => some i
  | .error _ => none

end Sys2Proof
end

