-- ==== Sys2Proof/Machine/State.lean ====
section
/-! DEFINITION. The state of one machine instance (10_state.md), its reset value (R22, R160), and
the reasons a step or a host action can stop. -/

namespace Sys2Proof.Machine

/-- The lifecycle state (R15): RUNNING, HALTED, and the spec's own FAULTED (R16, D3). -/
inductive Lifecycle where
  | running | halted | faulted
  deriving DecidableEq, Repr

/-- The fault record `(opcode, pc)`: the illegal byte and the address it was fetched from (R16). -/
structure FaultRecord where
  opcode : Byte
  pc     : Addr
  deriving DecidableEq, Repr

/-- Memory as data: (address, byte) pairs, addresses strictly rising, no entry equal to what an
unlisted address reads as. `Memory.wf` in `Ops.lean` says so. -/
abbrev Memory := List Host.Cell

/-- The state: the tuple of 10_state.md, field by field, and the run controller's step count. -/
structure State where
  /-- `A`, the accumulator (R10). -/
  a      : Byte
  /-- `B`, the general register (R11). -/
  b      : Byte
  /-- `PC`, the program counter (R12). -/
  pc     : Addr
  /-- `Z`, the zero flag (R13). -/
  z      : Bool
  /-- `state`, the lifecycle state (R15). -/
  life   : Lifecycle
  /-- `fault`, the fault record (R16). -/
  fault  : Option FaultRecord
  /-- Memory (R17). -/
  mem    : Memory
  /-- Output, oldest value first (R18). -/
  output : List Byte
  /-- `steps`, state of the run controller and not of the core: no step reads or writes it, the run
  loop counts in it (R23, R78). -/
  steps  : Nat
  deriving DecidableEq, Repr

/-- The state after reset (R22, R160): every cell 0, so no cell is listed. -/
def State.reset : State where
  a      := 0
  b      := 0
  pc     := Config.resetPc
  z      := false
  life   := .running
  fault  := none
  mem    := []
  output := []
  steps  := 0

/-- The fatal failure kinds of R149, by name (D19). No step of the core answers a fault: the decode
fault is taken into the state FAULTED (R130), whose step is the identity (R76). -/
inductive Fault where
  /-- The core fetched an illegal opcode byte. Reported by a run that ended FAULTED (R79, R149). Safe:
  it is a report about a state, and stops no step. -/
  | unknownOpcode (opcode : Byte) (pc : Addr)
  /-- `MAX_STEPS` steps executed and the core is still RUNNING. Reported by the run controller (R141,
  R149). Safe: a report, no step stops. -/
  | stepBudgetExceeded (budget : Nat)
  /-- A pair's mnemonic is not in the Instruction Set Table. Raised by the loader before any step
  (R168, R149). Safe: no machine is started. -/
  | unknownMnemonic (mnemonic : String)
  deriving DecidableEq, Repr

/-- Requests that are given no meaning. No instruction is among them. -/
inductive Refusal where
  /-- An instruction that has no meaning in the model. Raised by no arm of `exec`. Safe. -/
  | notModelled (mnemonic : String)
  /-- The loader is given an operand above 65535. Raised by the loader (R169, D9). Safe. -/
  | operandOutOfRange (operand : Nat)
  /-- The loader is given a program of more than 21845 instructions. Raised by the loader (R169,
  D9). Safe. -/
  | programTooLong (length : Nat)
  /-- The host asks for a load on an instance that is not freshly reset. Raised by the host
  interface (R162, D21). Safe. -/
  | loadNotAfterReset
  /-- The host asks for a poke before the load or after the run. Raised by the host interface (R27,
  R172, D17). Safe. -/
  | pokeNotBeforeRun
  /-- The host asks for a second run of one instance. Raised by the host interface (R162, D21). Safe. -/
  | secondRun
  /-- The run controller finds the core FAULTED with no fault record. No run from reset reaches
  such a state (R16), and it has nothing to report. Raised by the run controller. Safe. -/
  | faultedWithoutRecord
  deriving DecidableEq, Repr

end Sys2Proof.Machine
end

