-- ==== Sys2Proof/Machine/Ops.lean ====
section
/-! DEFINITION. The named operations over memory, output and lifecycle. -/

namespace Sys2Proof.Machine

namespace Memory

/-- What an unlisted address reads as: the reset contents (R17, U9). -/
def unlisted : Byte := Config.resetByte

/-- The canonical form: addresses strictly rising and inside the address space, and no entry equal
to what an unlisted address reads as. -/
abbrev wf (m : Memory) : Prop :=
  m.Pairwise (fun c d => c.1 < d.1) ∧ ∀ c ∈ m, c.1 < Config.memSize ∧ c.2 ≠ unlisted

/-- The byte at an address (R24, R35). -/
def read : Memory → Nat → Byte
  | [], _ => unlisted
  | (k, v) :: rest, x => if k = x then v else read rest x

/-- Every entry of an address taken out. -/
def erase (m : Memory) (x : Nat) : Memory := m.filter (fun c => c.1 != x)

/-- An entry put in before the first higher address. -/
def insert (x : Nat) (v : Byte) : Memory → Memory
  | [] => [(x, v)]
  | (k, w) :: rest => if x < k then (x, v) :: (k, w) :: rest else (k, w) :: insert x v rest

/-- One cell written, every other cell as it was (R35). -/
def write (m : Memory) (x : Nat) (v : Byte) : Memory :=
  if v = unlisted then erase m x else insert x v (erase m x)

end Memory

namespace State

/-- `MemRead(addr, 1)` (R8). Every 16-bit address has a cell (R30, R44). -/
def load (s : State) (x : Addr) : Byte := Memory.read s.mem x.toNat

/-- `MemWrite(addr, 1, v)` (R8). -/
def store (s : State) (x : Addr) (v : Byte) : State :=
  { s with mem := Memory.write s.mem x.toNat v }

/-- Bytes written at rising addresses from `x`, modulo 65536 (R37). -/
def storeBytes (s : State) (x : Addr) : List Byte → State
  | [] => s
  | v :: vs => (s.store x v).storeBytes (x + 1) vs

/-- `OutputAppend(v)` (R8, R18): one value at the end, always accepted (D13). -/
def outputAppend (s : State) (v : Byte) : State := { s with output := s.output ++ [v] }

/-- `PC <- target` (R8). -/
def jump (s : State) (target : Addr) : State := { s with pc := target }

/-- `PC` advanced past `n` bytes, modulo 65536 (R12, R37). -/
def advance (s : State) (n : Addr) : State := { s with pc := s.pc + n }

/-- The halt of R116. There is no way back from it but a reset (R15). -/
def halt (s : State) : State := { s with life := .halted }

/-- TAKING THE DECODE FAULT (R130, R75), the machine's only exception: the record is latched with
the illegal byte and the address it was fetched from (D4), and the core enters FAULTED (D3). `PC`
stays where the fetch left it. No handler, no vector, nothing saved in memory (R134), and no return
(R136): only a reset leaves FAULTED. -/
def takeUnknownOpcode (s : State) (opcode : Byte) (fetchedFrom : Addr) : State :=
  { s with fault := some ⟨opcode, fetchedFrom⟩, life := .faulted }

end State

/-- One outcome after another: the first fault or refusal ends the sequence. -/
def andThen {σ τ : Type} (o : Host.Outcome σ Fault Refusal) (f : σ → Host.Outcome τ Fault Refusal) :
    Host.Outcome τ Fault Refusal :=
  match o with
  | .next s => f s
  | .fault r => .fault r
  | .refused r => .refused r

/-- The next state of an outcome, if it is one. -/
def nextOf {σ φ ρ : Type} : Host.Outcome σ φ ρ → Option σ
  | .next s => some s
  | .fault _ => none
  | .refused _ => none

end Sys2Proof.Machine
end

