-- ==== Sys2Proof/Machine/Operands.lean ====
section
/-! DEFINITION. The operand forms (R53, R89). There are two and no others, and the ignored operand:
immediate, the low byte of the operand; absolute, the operand itself as the address or target. -/

namespace Sys2Proof.Machine

/-- Immediate form (LDA, LDB): `operand & 0xFF`; bits 15..8 are ignored, whatever they hold (R53). -/
def immediate (operand : Operand) : Byte := lowByte operand

/-- Absolute form (LDA_MEM, STA, JMP, JZ): `EA = operand`, all 16 bits, nothing added (R89). -/
def effectiveAddress (operand : Operand) : Addr := operand

end Sys2Proof.Machine
end

