-- ==== Sys2Proof/Machine/Flags.lean ====
section
/-! DEFINITION. The zero flag `Z`, the only flag (R13), and the two register writes that set it. -/

namespace Sys2Proof.Machine

/-- `Z <- (r == 0)`, `r` the 8-bit value just written (R13). -/
def zeroFlag (r : Byte) : Bool := r == 0

namespace State

/-- A data-producing instruction writes `A`: the register and the flag from the new value (R10, R13). -/
def produceA (s : State) (r : Byte) : State := { s with a := r, z := zeroFlag r }

/-- A data-producing instruction writes `B`: the flag describes `B`, not `A` (R11, R13). -/
def produceB (s : State) (r : Byte) : State := { s with b := r, z := zeroFlag r }

end State

end Sys2Proof.Machine
end

