-- ==== Sys2Proof/Machine/Arithmetic.lean ====
section
/-! DEFINITION. The arithmetic instructions (42_arithmetic.md): exact sums and differences, narrowed
to 8 bits (R97). -/

namespace Sys2Proof.Machine

/-- An exact integer reduced modulo 256 (R8: the remainder is in 0..255, also for a negative one). -/
def wrap8 (n : Int) : Byte := BitVec.ofInt 8 n

/-- `(x + y) mod 256` (R95). -/
def sum8 (x y : Byte) : Byte := wrap8 ((x.toNat : Int) + y.toNat)

/-- `(x - y) mod 256`, never saturating (R96). -/
def difference8 (x y : Byte) : Byte := wrap8 ((x.toNat : Int) - y.toNat)

/-- ADD (R95): `A <- (A + B) mod 256; Z <- (A == 0)`. The operand is ignored (R58). -/
def execAdd (_operand : Operand) (s : State) : Host.Outcome State Fault Refusal :=
  .next (s.produceA (sum8 s.a s.b))

/-- SUB (R96): `A <- (A - B) mod 256; Z <- (A == 0)`. The operand is ignored (R58). -/
def execSub (_operand : Operand) (s : State) : Host.Outcome State Fault Refusal :=
  .next (s.produceA (difference8 s.a s.b))

end Sys2Proof.Machine
end

