-- ==== Sys2Proof/Machine/Control.lean ====
section
/-! DEFINITION. The control transfer instructions (43_control_transfer.md). The target is absolute
and unchecked (R107). -/

namespace Sys2Proof.Machine

/-- JMP (R105): `PC <- operand`. -/
def execJmp (operand : Operand) (s : State) : Host.Outcome State Fault Refusal :=
  .next (s.jump (effectiveAddress operand))

/-- JZ (R106): `if Z then PC <- operand`, else `PC` stays past the instruction. -/
def execJz (operand : Operand) (s : State) : Host.Outcome State Fault Refusal :=
  .next (if s.z then s.jump (effectiveAddress operand) else s)

end Sys2Proof.Machine
end

