-- ==== Sys2Proof/Machine/LoadStore.lean ====
section
/-! DEFINITION. The load and store instructions (41_load_store.md). A meaning acts on the state
whose `PC` is already past the instruction (R74). -/

namespace Sys2Proof.Machine

/-- LDA (R85): `A <- operand[7:0]; Z <- (A == 0)`. -/
def execLda (operand : Operand) (s : State) : Host.Outcome State Fault Refusal :=
  .next (s.produceA (immediate operand))

/-- LDB (R86): `B <- operand[7:0]; Z <- (B == 0)`. -/
def execLdb (operand : Operand) (s : State) : Host.Outcome State Fault Refusal :=
  .next (s.produceB (immediate operand))

/-- LDA_MEM (R87): `A <- MemRead(operand, 1); Z <- (A == 0)`. -/
def execLdaMem (operand : Operand) (s : State) : Host.Outcome State Fault Refusal :=
  .next (s.produceA (s.load (effectiveAddress operand)))

/-- STA (R88): `MemWrite(operand, 1, A)`; `Z` keeps its value. -/
def execSta (operand : Operand) (s : State) : Host.Outcome State Fault Refusal :=
  .next (s.store (effectiveAddress operand) s.a)

end Sys2Proof.Machine
end

