-- ==== Sys2Proof/Machine/OutputHalt.lean ====
section
/-! DEFINITION. The output and halt instructions (44_output_halt.md). -/

namespace Sys2Proof.Machine

/-- OUT (R115): `OutputAppend(A)`. The operand is ignored (R58). -/
def execOut (_operand : Operand) (s : State) : Host.Outcome State Fault Refusal :=
  .next (s.outputAppend s.a)

/-- HLT (R116): `state <- HALTED`. The operand is ignored (R58). -/
def execHlt (_operand : Operand) (s : State) : Host.Outcome State Fault Refusal :=
  .next s.halt

end Sys2Proof.Machine
end

