-- ==== Sys2Proof/Machine/Dispatch.lean ====
section
/-! DEFINITION. The execute action of each instruction (R74), on the state whose `PC` has already
been advanced past the instruction. -/

namespace Sys2Proof.Machine

def exec (i : Instr) (s : State) : Host.Outcome State Fault Refusal :=
  match i with
  | .lda operand => Sys2Proof.Machine.execLda operand s
  | .ldb operand => Sys2Proof.Machine.execLdb operand s
  | .ldaMem operand => Sys2Proof.Machine.execLdaMem operand s
  | .sta operand => Sys2Proof.Machine.execSta operand s
  | .add operand => Sys2Proof.Machine.execAdd operand s
  | .sub operand => Sys2Proof.Machine.execSub operand s
  | .jmp operand => Sys2Proof.Machine.execJmp operand s
  | .jz operand => Sys2Proof.Machine.execJz operand s
  | .out operand => Sys2Proof.Machine.execOut operand s
  | .hlt operand => Sys2Proof.Machine.execHlt operand s

end Sys2Proof.Machine
end

