-- ==== Sys2Proof/Machine/Cycle.lean ====
section
/-! DEFINITION. Fetch, decode, execute: the body of a step of a RUNNING core (R70 to R75). -/

namespace Sys2Proof.Machine

namespace State

/-- The opcode fetch (R71): the byte at `PC`, and the state with `PC` advanced by 1. -/
def fetchOpcode (s : State) : Byte × State := (s.load s.pc, s.advance 1)

/-- The operand fetch (R72): two bytes from `PC`, low byte first, and the state with `PC` advanced
by 2. -/
def fetchOperand (s : State) : Operand × State :=
  (assembleOperand (s.load s.pc) (s.load (s.pc + 1)), s.advance 2)

/-- The three bytes an instruction at `PC` occupies, addresses modulo 65536 (R50). -/
def bytesAtPc (s : State) : List Byte := [s.load s.pc, s.load (s.pc + 1), s.load (s.pc + 2)]

end State

/-- One fetch-decode-execute cycle (R75 below its first test). An illegal opcode byte ends it with
the decode fault before any operand byte is read (R73). Every legal instruction, HLT among them,
consumes its two operand bytes (R72, D1). -/
def cycle (s : State) : Host.Outcome State Fault Refusal :=
  match Mnemonic.ofOpcode s.fetchOpcode.1 with
  | none => .next (s.fetchOpcode.2.takeUnknownOpcode s.fetchOpcode.1 s.pc)
  | some m => exec (m.instr s.fetchOpcode.2.fetchOperand.1) s.fetchOpcode.2.fetchOperand.2

/-- One step (R75): the cycle while RUNNING, and nothing at all in a terminal state (R76, D7). -/
def stepCore (s : State) : Host.Outcome State Fault Refusal :=
  match s.life with
  | .running => cycle s
  | .halted => .next s
  | .faulted => .next s

/-- An instruction given as the word `W` of R51, stored in the three cells at `PC`. -/
def State.placeAtPc (s : State) (nbits w : Nat) : State := s.storeBytes s.pc (tableBytes nbits w)

end Sys2Proof.Machine
end

