-- ==== Sys2Proof/Machine/Step.lean ====
section
/-! DEFINITION. One step of the machine, and an instruction placed where the next step fetches. -/

namespace Sys2Proof.Machine

/-- One step of the core (R75). -/
def step (s : State) : Host.Outcome State Fault Refusal := stepCore s

/-- `s` with the instruction whose word is `w` in the three cells at `PC`, where the next step
fetches. Nothing but those cells changes. (A core that is HALTED or FAULTED fetches nothing, R76,
and is not set running by this.) -/
def State.withFetchWord (s : State) (nbits w : Nat) : State := s.placeAtPc nbits w

end Sys2Proof.Machine
end

