-- ==== Sys2Proof/Machine/Fleet.lean ====
section
/-! DEFINITION. Several machine instances side by side (R146): a list of states, of which one steps
at a time, in any order. -/

namespace Sys2Proof.Machine

/-- Instances side by side, each with a state of its own. -/
abbrev Fleet := List State

namespace Fleet

/-- Instance number `k` takes one step. (A number that names no instance steps nothing.) -/
def stepAt : Nat → Fleet → Host.Outcome Fleet Fault Refusal
  | _, [] => .next []
  | 0, s :: rest => andThen (step s) (fun t => .next (t :: rest))
  | k + 1, s :: rest => andThen (stepAt k rest) (fun rest' => .next (s :: rest'))

/-- The instances named by a schedule step in its order. -/
def follow : List Nat → Fleet → Host.Outcome Fleet Fault Refusal
  | [], f => .next f
  | k :: ks, f => andThen (stepAt k f) (follow ks)

end Fleet

end Sys2Proof.Machine
end

