-- ==== Sys2Proof/Machine/Port.lean ====
section
/-! DEFINITION. The block's interface during one step: the accesses on the memory port in their order
(R24, R45), the value on the output port (R25), and the value a data-producing instruction writes
(R13). Each is read off the state before the step; none of it is state. -/

namespace Sys2Proof.Machine

/-- One access on the memory port: 16-bit address, 8-bit data (R24, R34). -/
inductive Access where
  | read (addr : Addr) (value : Byte)
  | write (addr : Addr) (value : Byte)
  deriving DecidableEq, Repr

namespace State

/-- The instruction the next step executes: none in a terminal state, none on an illegal opcode. -/
def nextInstr (s : State) : Option Instr :=
  match s.life with
  | .running =>
    match decode s.bytesAtPc with
    | .ok (i, _) => some i
    | .error _ => none
  | .halted => none
  | .faulted => none

/-- The data access of an instruction (R24): one read for LDA_MEM, one write for STA, nothing for
the other eight. -/
def dataAccess (s : State) : Instr → List Access
  | .ldaMem v => [.read (effectiveAddress v) (s.load (effectiveAddress v))]
  | .sta v => [.write (effectiveAddress v) s.a]
  | .lda _ | .ldb _ | .add _ | .sub _ | .jmp _ | .jz _ | .out _ | .hlt _ => []

/-- The accesses of the next step, in order (R45): the opcode byte; if it decodes, the two operand
bytes; then the data access. A step of a terminal state makes none (R76). -/
def accesses (s : State) : List Access :=
  match s.life with
  | .running =>
    .read s.pc (s.load s.pc) ::
      match s.nextInstr with
      | none => []
      | some i =>
        .read (s.pc + 1) (s.load (s.pc + 1)) :: .read (s.pc + 2) (s.load (s.pc + 2))
          :: s.dataAccess i
  | .halted => []
  | .faulted => []

/-- The value the next step presents to the output sink, if it executes an OUT (R25). -/
def presents (s : State) : Option Byte :=
  match s.nextInstr with
  | none => none
  | some i =>
    match i with
    | .out _ => some s.a
    | .lda _ | .ldb _ | .ldaMem _ | .sta _ | .add _ | .sub _ | .jmp _ | .jz _ | .hlt _ => none

/-- The value the next step writes into `A` or `B`, if it executes a data-producing instruction
(R13). -/
def produces (s : State) : Option Byte :=
  match s.nextInstr with
  | none => none
  | some i =>
    match i with
    | .lda v => some (immediate v)
    | .ldb v => some (immediate v)
    | .ldaMem v => some (s.load (effectiveAddress v))
    | .add _ => some (sum8 s.a s.b)
    | .sub _ => some (difference8 s.a s.b)
    | .sta _ | .jmp _ | .jz _ | .out _ | .hlt _ => none

end State

end Sys2Proof.Machine
end

