-- ==== Sys2Proof/Machine/Loader.lean ====
section
/-! DEFINITION. The program loader, the host-side boot procedure (R5, R165 to R171). It answers an
image or an error, never both (R168, D10). -/

namespace Sys2Proof.Machine

/-- The operand of a pair: "default 0 if omitted" (R60); above 65535 it is refused, not truncated
(R169, D9). -/
def operandOf (p : SourcePair) : Host.Outcome Operand Fault Refusal :=
  match p.operand with
  | none => .next 0
  | some v => if v ≤ 65535 then .next (BitVec.ofNat 16 v) else .refused (.operandOutOfRange v)

/-- One pair made an instruction; an unknown mnemonic is the failure of R168, reported by name. -/
def assemblePair (p : SourcePair) : Host.Outcome Instr Fault Refusal :=
  match Mnemonic.ofName p.mnemonic with
  | none => .fault (.unknownMnemonic p.mnemonic)
  | some m => andThen (operandOf p) (fun v => .next (m.instr v))

/-- The pairs of a program made instructions, in order. -/
def assembleProgram : SourceProgram → Host.Outcome (List Instr) Fault Refusal
  | [] => .next []
  | p :: ps =>
    andThen (assemblePair p) (fun i => andThen (assembleProgram ps) (fun is => .next (i :: is)))

/-- The failsafe halt: exactly one byte, the opcode of HLT (R167). -/
def failsafe : Byte := Mnemonic.HLT.opcode

/-- The `3n + 1` bytes of the image: the encodings in order with no gaps (R165, R166), and the
failsafe byte (R167). -/
def image (is : List Instr) : List Byte := is.flatMap encode ++ [failsafe]

/-- The load of R165 into a machine: the image written from address 0, nothing else touched (R170).
A program whose image does not fit is refused (R169, D9). -/
def loadProgram (p : SourceProgram) (s : State) : Host.Outcome State Fault Refusal :=
  andThen (assembleProgram p) (fun is =>
    if Config.instrBytes * is.length + 1 ≤ Config.memSize
    then .next (s.storeBytes (BitVec.ofNat 16 Config.loadBase) (image is))
    else .refused (.programTooLong is.length))

end Sys2Proof.Machine
end

