-- ==== Sys2Proof/Machine/Run.lean ====
section
/-! DEFINITION. The run controller beside the core: the run loop and its verdicts (R78 to R80), which
are the step-budget watchdog (R140, R141). -/

namespace Sys2Proof.Machine

/-- How a run ends (R79). -/
inductive Verdict where
  | halted
  | unknownOpcode (opcode : Byte) (pc : Addr)
  | stepBudgetExceeded (budget : Nat)
  deriving DecidableEq, Repr

/-- The failure a verdict reports, if it reports one (R149): Halted is the only success (R79). -/
def Verdict.failure : Verdict → Option Fault
  | .halted => none
  | .unknownOpcode opcode pc => some (.unknownOpcode opcode pc)
  | .stepBudgetExceeded budget => some (.stepBudgetExceeded budget)

/-- What a run leaves: its verdict and the machine state after its last step (R80). -/
structure RunResult where
  verdict : Verdict
  final   : State
  deriving DecidableEq, Repr

/-- The body of the loop: `step(); steps <- steps + 1` (R78). The step that faults is counted. -/
def countedStep (s : State) : Host.Outcome State Fault Refusal :=
  andThen (step s) (fun t => .next { t with steps := t.steps + 1 })

/-- The loop of R78 with `budget` steps left: while RUNNING and some are left, one more. -/
def runLoop : Nat → State → Host.Outcome State Fault Refusal
  | 0, s => .next s
  | budget + 1, s =>
    match s.life with
    | .running => andThen (countedStep s) (runLoop budget)
    | .halted => .next s
    | .faulted => .next s

/-- The verdict on the state the loop left (R78, R79): the lifecycle state is looked at before the
budget (R133, D5). -/
def verdictOn (maxSteps : Nat) (s : State) : Host.Outcome Verdict Fault Refusal :=
  match s.life with
  | .halted => .next .halted
  | .running => .next (.stepBudgetExceeded maxSteps)
  | .faulted =>
    match s.fault with
    | some r => .next (.unknownOpcode r.opcode r.pc)
    | none => .refused .faultedWithoutRecord

/-- `run(MAX_STEPS)` (R78), from `steps = 0`. -/
def run (maxSteps : Nat) (s : State) : Host.Outcome RunResult Fault Refusal :=
  andThen (runLoop maxSteps { s with steps := 0 }) (fun t =>
    andThen (verdictOn maxSteps t) (fun v => .next ⟨v, t⟩))

end Sys2Proof.Machine
end

