-- ==== Sys2Proof/Machine/Session.lean ====
section
/-! DEFINITION. What the host can do to one machine instance (R27, R28) and in which order (R162,
D21): reset, one load, pokes, one run, observation. The host has no move during a run (D17). -/

namespace Sys2Proof.Machine

/-- Where an instance is in its life (R162). -/
inductive Phase where
  | fresh
  | loaded
  | ended (verdict : Verdict)
  deriving DecidableEq, Repr

/-- One machine instance as the host holds it. -/
structure Session where
  machine : State
  phase   : Phase
  deriving DecidableEq, Repr

/-- The host's control inputs (R27). -/
inductive HostAction where
  /-- (a) reset the instance (R160). -/
  | reset
  /-- (b) load a program through the loader (R165). -/
  | load (program : SourceProgram)
  /-- (c) write a memory cell directly (R172). -/
  | poke (addr : Addr) (value : Byte)
  /-- (d) run with a step budget, optional, defaulting to 100000 (R78, D20). -/
  | run (maxSteps : Option Nat)
  deriving DecidableEq, Repr

namespace Session

/-- A newly reset instance: also what construction gives (R160, D8). -/
def fresh : Session := ⟨State.reset, .fresh⟩

/-- Load: on a freshly reset instance only (R165, R162). -/
def load (program : SourceProgram) (c : Session) : Host.Outcome Session Fault Refusal :=
  match c.phase with
  | .fresh => andThen (loadProgram program c.machine) (fun s => .next ⟨s, .loaded⟩)
  | .loaded => .refused .loadNotAfterReset
  | .ended _ => .refused .loadNotAfterReset

/-- Poke: after the load and before the run (R172, R27). -/
def poke (addr : Addr) (value : Byte) (c : Session) : Host.Outcome Session Fault Refusal :=
  match c.phase with
  | .fresh => .refused .pokeNotBeforeRun
  | .loaded => .next { c with machine := c.machine.store addr value }
  | .ended _ => .refused .pokeNotBeforeRun

/-- Run, once (R162). A run with nothing loaded is a run of zero-filled memory (R161). -/
def run (maxSteps : Option Nat) (c : Session) : Host.Outcome Session Fault Refusal :=
  let go := andThen (Machine.run (maxSteps.getD Config.defaultMaxSteps) c.machine)
    (fun r => .next ⟨r.final, .ended r.verdict⟩)
  match c.phase with
  | .fresh => go
  | .loaded => go
  | .ended _ => .refused .secondRun

/-- One action of the host. Reset may be applied in any state (R160). -/
def act (action : HostAction) (c : Session) : Host.Outcome Session Fault Refusal :=
  match action with
  | .reset => .next fresh
  | .load program => c.load program
  | .poke addr value => c.poke addr value
  | .run maxSteps => c.run maxSteps

/-- A sequence of host actions, stopping at the first that fails or is refused. -/
def acts : List HostAction → Session → Host.Outcome Session Fault Refusal
  | [], c => .next c
  | x :: xs, c => andThen (c.act x) (acts xs)

end Session

/-- What the host can read after a run (R28, R26): the verdict, Output, the registers, the flag, the
status outputs and memory. -/
structure Observation where
  verdict : Verdict
  output  : List Byte
  a       : Byte
  b       : Byte
  pc      : Addr
  z       : Bool
  life    : Lifecycle
  fault   : Option FaultRecord
  mem     : Memory
  steps   : Nat
  deriving DecidableEq, Repr

/-- The host's observation: nothing before the run has ended (R28). -/
def Session.observe (c : Session) : Option Observation :=
  match c.phase with
  | .fresh => none
  | .loaded => none
  | .ended verdict =>
    some
      { verdict, output := c.machine.output, a := c.machine.a, b := c.machine.b
        pc := c.machine.pc, z := c.machine.z, life := c.machine.life
        fault := c.machine.fault, mem := c.machine.mem, steps := c.machine.steps }

end Sys2Proof.Machine
end

