-- ==== Sys2Proof/Safety.lean ====
section
/-! DEFINITION. What counts as a good state and a safe run, in the terms the claims use. -/

namespace Sys2Proof.Machine

namespace State

/-- The invariant between two steps: memory is in its canonical form, a fault record is held exactly
when the core is FAULTED (R16), and it names an illegal byte that stands where it says, one cell
before `PC` (R130). -/
structure Inv (s : State) : Prop where
  memory   : Memory.wf s.mem
  record   : s.fault.isSome ↔ s.life = .faulted
  recorded : ∀ r, s.fault = some r →
    Mnemonic.ofOpcode r.opcode = none ∧ s.load r.pc = r.opcode ∧ s.pc = r.pc + 1

/-- The state is terminal: HALTED or FAULTED (R15). -/
def terminal (s : State) : Prop := s.life ≠ .running

/-- The state after `k` steps. A step always answers a next state (`Laws/Step.lean`). -/
def afterSteps : Nat → State → State
  | 0, s => s
  | k + 1, s => afterSteps k ((nextOf (step s)).getD s)

/-- The values presented to the output sink in the first `k` steps, oldest first (R25). -/
def presentedIn : Nat → State → List Byte
  | 0, _ => []
  | k + 1, s => s.presents.toList ++ presentedIn k (afterSteps 1 s)

/-- The values written into `A` or `B` in the first `k` steps, oldest first (R13). -/
def producedIn : Nat → State → List Byte
  | 0, _ => []
  | k + 1, s => s.produces.toList ++ producedIn k (afterSteps 1 s)

/-- A safe run: no decode fault in the first `k` steps (R130). -/
def safeFor (k : Nat) (s : State) : Prop := ∀ j ≤ k, (afterSteps j s).life ≠ .faulted

/-- A successful run: the core reaches HALTED, the only successful termination (R79). -/
def reachesHalt (s : State) : Prop := ∃ k, (afterSteps k s).life = .halted

end State

end Sys2Proof.Machine
end

