-- ==== Sys2Proof/Certificates/Slice0/Obligations.lean ====
section
/-! DEFINITION. The statements about the machine. Each docstring names the rule of the spec; where a
clause rests on one of the spec's own decisions (D1 to D22) or on a choice of the model, it says so. -/

open Sys2Proof Sys2Proof.Machine

/-! ## Reset -/

/-- R22: every piece of state has the reset value the rule gives. -/
def Obligations.ResetState : Prop :=
  State.reset.a = 0 ∧ State.reset.b = 0 ∧ State.reset.pc = 0 ∧ State.reset.z = false ∧
  State.reset.life = .running ∧ State.reset.fault = none ∧
  (∀ x : Addr, State.reset.load x = 0) ∧ State.reset.output = [] ∧ State.reset.steps = 0

/-- The reset state satisfies the invariant. -/
def Obligations.ResetSatisfiesInvariant : Prop := State.reset.Inv

/-! ## The invariant -/

/-- R16, R130: the invariant is kept by every step from every state that satisfies it. That a core
with a record is FAULTED, and that `PC` is one past the recorded address, are decisions D3 and D4
(log entries 2 and 3). -/
def Obligations.StepKeepsInvariant : Prop :=
  ∀ s t : State, s.Inv → step s = .next t → t.Inv

/-- The invariant holds of an instance whatever sequence of actions the host takes, whatever it
loads and pokes; and until a run has ended the core is RUNNING (R162, R172). The order of host
actions is decisions D17 and D21 (log entry 8); that a core with a record is FAULTED, and where the
record and `PC` point, are decisions D3 and D4 inside the invariant (log entries 2 and 3). -/
def Obligations.HostActionsKeepInvariant : Prop :=
  ∀ (xs : List HostAction) (c : Session), Session.acts xs Session.fresh = .next c →
    c.machine.Inv ∧ ((∀ v, c.phase ≠ .ended v) → c.machine.life = .running)

/-- Two canonical memories that read alike at every address are the same data. -/
def Obligations.CanonicalMemoriesThatReadAlikeAreEqual : Prop :=
  ∀ m m' : Memory, m.wf → m'.wf →
    (∀ x : Addr, Memory.read m x.toNat = Memory.read m' x.toNat) → m = m'

/-! ## Encoding -/

/-- R54: the ten rows of the Instruction Set Table, and that it is a bijection in both directions. The
third clause, that a spelling matches letter for letter, is R60 under decision D11 (log entry 15) and
not R54. -/
def Obligations.InstructionSetTable : Prop :=
  ([Mnemonic.LDA, .LDB, .LDA_MEM, .STA, .ADD, .SUB, .JMP, .JZ, .OUT, .HLT].map
      (fun m => (m.name, m.opcode.toNat)) =
    [("LDA", 1), ("LDB", 2), ("LDA_MEM", 3), ("STA", 4), ("ADD", 5), ("SUB", 6), ("JMP", 7),
      ("JZ", 8), ("OUT", 9), ("HLT", 255)]) ∧
  (∀ (b : Byte) (m : Mnemonic), Mnemonic.ofOpcode b = some m ↔ b = m.opcode) ∧
  (∀ (n : String) (m : Mnemonic), Mnemonic.ofName n = some m ↔ n = m.name)

/-- R55 (with R52): the opcode byte alone decides, the operand is assembled low byte first, and every
other byte is illegal whatever follows it. -/
def Obligations.OpcodeByteAloneDecodes : Prop :=
  (∀ (lo hi : Byte) (rest : List Byte) (v : Operand), v.toNat = lo.toNat + 256 * hi.toNat →
    decode (0x01 :: lo :: hi :: rest) = .ok (.lda v, rest) ∧
    decode (0x02 :: lo :: hi :: rest) = .ok (.ldb v, rest) ∧
    decode (0x03 :: lo :: hi :: rest) = .ok (.ldaMem v, rest) ∧
    decode (0x04 :: lo :: hi :: rest) = .ok (.sta v, rest) ∧
    decode (0x05 :: lo :: hi :: rest) = .ok (.add v, rest) ∧
    decode (0x06 :: lo :: hi :: rest) = .ok (.sub v, rest) ∧
    decode (0x07 :: lo :: hi :: rest) = .ok (.jmp v, rest) ∧
    decode (0x08 :: lo :: hi :: rest) = .ok (.jz v, rest) ∧
    decode (0x09 :: lo :: hi :: rest) = .ok (.out v, rest) ∧
    decode (0xFF :: lo :: hi :: rest) = .ok (.hlt v, rest)) ∧
  (∀ (b : Byte) (rest : List Byte), b.toNat = 0 ∨ (10 ≤ b.toNat ∧ b.toNat ≤ 254) →
    decode (b :: rest) = .error (.unknownOpcode b))

/-- Decoding the encoding of a well-formed instruction gives it back, with the bytes after it. -/
def Obligations.DecodeOfEncode : Prop :=
  ∀ (i : Instr) (rest : List Byte), i.wf = true → decode (encode i ++ rest) = .ok (i, rest)

/-- R62: `encode` writes opcode, low byte, high byte; decoding recovers mnemonic and operand from the
three bytes, and encoding recovers the bytes from what was decoded. -/
def Obligations.EncodingIsABijection : Prop :=
  (∀ (m : Mnemonic) (v : Operand), encode (m.instr v) =
    [m.opcode, BitVec.ofNat 8 v.toNat, BitVec.ofNat 8 (v.toNat / 256)]) ∧
  (∀ (m : Mnemonic) (v : Operand), decode (encode (m.instr v)) = .ok (m.instr v, [])) ∧
  (∀ (m m' : Mnemonic) (v v' : Operand), m.instr v = m'.instr v' → m = m' ∧ v = v') ∧
  (∀ (bs : List Byte) (i : Instr) (rest : List Byte),
    decode bs = .ok (i, rest) → bs = encode i ++ rest)

/-- Words of 95_test_vectors.md section 2.6, numbered as R51 numbers them, and their instructions. -/
def Obligations.SampleWordsDecode : Prop :=
  decodeTableWord 24 0x000701 = some (.lda 7) ∧ decodeTableWord 24 0x000502 = some (.ldb 5) ∧
  decodeTableWord 24 0x800003 = some (.ldaMem 0x8000) ∧
  decodeTableWord 24 0x800004 = some (.sta 0x8000) ∧
  decodeTableWord 24 0x123405 = some (.add 0x1234) ∧
  decodeTableWord 24 0x000006 = some (.sub 0) ∧ decodeTableWord 24 0x000009 = some (.out 0) ∧
  decodeTableWord 24 0x001208 = some (.jz 18) ∧ decodeTableWord 24 0xFFFE07 = some (.jmp 0xFFFE) ∧
  decodeTableWord 24 0x0000FF = some (.hlt 0) ∧ decodeTableWord 24 0x00000A = none

/-! ## The step -/

/-- R72, R74: when the bytes at `PC` decode, the step is the execute action of that instruction on
the state whose `PC` is past its three bytes. That HLT is no exception is decision D1 (log entry 1). -/
def Obligations.StepRunsTheDecodedInstruction : Prop :=
  ∀ (s : State) (i : Instr), s.life = .running →
    decode [s.load s.pc, s.load (s.pc + 1), s.load (s.pc + 2)] = .ok (i, []) →
    step s = exec i { s with pc := s.pc + 3 }

/-- R73: an illegal opcode byte ends the step with no operand byte read, `PC` advanced by 1 and no
more, and no register, flag, memory cell or Output element changed. -/
def Obligations.IllegalOpcodeEndsTheStep : Prop :=
  ∀ s : State, s.life = .running →
    ((s.load s.pc).toNat = 0 ∨ (10 ≤ (s.load s.pc).toNat ∧ (s.load s.pc).toNat ≤ 254)) →
    s.accesses = [.read s.pc (s.load s.pc)] ∧
    ∃ t, step s = .next t ∧ t.pc = s.pc + 1 ∧ t.a = s.a ∧ t.b = s.b ∧ t.z = s.z ∧
      t.mem = s.mem ∧ t.output = s.output

/-- R130: taking the decode fault, in full. FAULTED with its record and the `PC` left behind are
decision D3, the recorded address decision D4 (log entries 2 and 3). -/
def Obligations.IllegalOpcodeEntersFaulted : Prop :=
  ∀ s : State, s.life = .running →
    ((s.load s.pc).toNat = 0 ∨ (10 ≤ (s.load s.pc).toNat ∧ (s.load s.pc).toNat ≤ 254)) →
    step s = .next { s with
      pc := s.pc + 1, life := .faulted, fault := some ⟨s.load s.pc, s.pc⟩ }

/-- R15, R76: HALTED and FAULTED are terminal. Any number of steps from such a state leaves it exactly
as it is (decision D7, log entry 4). -/
def Obligations.TerminalStatesNeverChange : Prop :=
  ∀ (k : Nat) (s : State), s.life ≠ .running → Host.Core.run core k s = .next s

/-- No sequence of steps from any state stops with a fault or a refusal of the interface, and the
state it leaves is a function of the state it began in (R77). That the core's fault, UnknownOpcode
(R131), is a FAULTED next state and no interface fault is the model's form of decision D3 (log entry
2); that a terminal state steps to itself is decision D7 (log entry 4). R44 says that no memory access
faults. -/
def Obligations.StepsNeverStop : Prop :=
  ∀ (k : Nat) (s : State), Host.Core.run core k s = .next (s.afterSteps k)

/-- R15: from RUNNING, a step enters HALTED exactly when the opcode byte is HLT's, FAULTED exactly
when it is illegal (decision D3, log entry 2), and stays RUNNING exactly for the other nine. -/
def Obligations.LifecycleAfterAStep : Prop :=
  ∀ s t : State, s.life = .running → step s = .next t →
    (t.life = .halted ↔ (s.load s.pc).toNat = 255) ∧
    (t.life = .faulted ↔
      (s.load s.pc).toNat = 0 ∨ (10 ≤ (s.load s.pc).toNat ∧ (s.load s.pc).toNat ≤ 254)) ∧
    (t.life = .running ↔ 1 ≤ (s.load s.pc).toNat ∧ (s.load s.pc).toNat ≤ 9)

/-- R12, R107: `PC` after a step, as a number modulo 65536. The clause for an illegal byte is decision
D3, that HLT advances by 3 decision D1 (log entries 1 and 2). -/
def Obligations.PcAfterAStep : Prop :=
  ∀ s t : State, s.life = .running → step s = .next t →
    t.pc.toNat =
      (if (s.load s.pc).toNat = 0 ∨ (10 ≤ (s.load s.pc).toNat ∧ (s.load s.pc).toNat ≤ 254)
        then (s.pc.toNat + 1) % 65536
      else if (s.load s.pc).toNat = 7 ∨ ((s.load s.pc).toNat = 8 ∧ s.z = true)
        then (s.load (s.pc + 1)).toNat + 256 * (s.load (s.pc + 2)).toNat
      else (s.pc.toNat + 3) % 65536)

/-- The host's placement of an instruction: three cells at `PC` change and nothing else, and the very
next step of a RUNNING core is that instruction (log entry 9). -/
def Obligations.PlacedInstructionRunsNext : Prop :=
  ∀ (s : State) (nbits w : Nat) (i : Instr),
    decodeTableWord nbits w = some i →
    { s.withFetchWord nbits w with mem := s.mem } = s ∧
    (∀ x, x ≠ s.pc → x ≠ s.pc + 1 → x ≠ s.pc + 2 → (s.withFetchWord nbits w).load x = s.load x) ∧
    (s.life = .running →
      step (s.withFetchWord nbits w) = exec i { s.withFetchWord nbits w with pc := s.pc + 3 })

/-! ## The ten instructions: the execute action, for every operand and state; and the whole step of a
RUNNING core whose three bytes at `PC` are the instruction's -/

/-- R85. -/
def Obligations.LdaLoadsTheLowOperandByteIntoA : Prop :=
  (∀ (v : Operand) (s : State), exec (.lda v) s =
    .next { s with a := BitVec.ofNat 8 v.toNat, z := decide (v.toNat % 256 = 0) }) ∧
  (∀ (s : State) (lo hi : Byte), s.life = .running → s.bytesAtPc = [0x01, lo, hi] →
    step s = .next { s with a := lo, z := decide (lo.toNat = 0), pc := s.pc + 3 })

/-- R86. -/
def Obligations.LdbLoadsTheLowOperandByteIntoB : Prop :=
  (∀ (v : Operand) (s : State), exec (.ldb v) s =
    .next { s with b := BitVec.ofNat 8 v.toNat, z := decide (v.toNat % 256 = 0) }) ∧
  (∀ (s : State) (lo hi : Byte), s.life = .running → s.bytesAtPc = [0x02, lo, hi] →
    step s = .next { s with b := lo, z := decide (lo.toNat = 0), pc := s.pc + 3 })

/-- R87. -/
def Obligations.LdaMemLoadsTheAddressedByteIntoA : Prop :=
  (∀ (v : Operand) (s : State), exec (.ldaMem v) s =
    .next { s with a := s.load v, z := decide ((s.load v).toNat = 0) }) ∧
  (∀ (s : State) (lo hi : Byte) (x : Addr), s.life = .running → s.bytesAtPc = [0x03, lo, hi] →
    x.toNat = lo.toNat + 256 * hi.toNat →
    step s = .next
      { s with a := s.load x, z := decide ((s.load x).toNat = 0), pc := s.pc + 3 })

/-- R88: exactly the addressed cell takes `A`, also when it is one of the instruction's own bytes. -/
def Obligations.StaStoresAInExactlyTheAddressedCell : Prop :=
  (∀ (v : Operand) (s : State), ∃ t, exec (.sta v) s = .next t ∧
    { t with mem := s.mem } = s ∧ ∀ x, t.load x = if x = v then s.a else s.load x) ∧
  (∀ (s : State) (lo hi : Byte), s.life = .running → s.bytesAtPc = [0x04, lo, hi] →
    ∃ t, step s = .next t ∧ { t with mem := s.mem } = { s with pc := s.pc + 3 } ∧
      ∀ x, t.load x = if x.toNat = lo.toNat + 256 * hi.toNat then s.a else s.load x)

/-- R95. -/
def Obligations.AddAddsBToAModulo256 : Prop :=
  (∀ (v : Operand) (s : State), exec (.add v) s =
    .next { s with
      a := BitVec.ofNat 8 (s.a.toNat + s.b.toNat)
      z := decide ((s.a.toNat + s.b.toNat) % 256 = 0) }) ∧
  (∀ (s : State) (lo hi : Byte), s.life = .running → s.bytesAtPc = [0x05, lo, hi] →
    step s = .next { s with
      a := BitVec.ofNat 8 (s.a.toNat + s.b.toNat)
      z := decide ((s.a.toNat + s.b.toNat) % 256 = 0)
      pc := s.pc + 3 })

/-- R96: the non-negative remainder, and a zero exactly for equal operands. -/
def Obligations.SubSubtractsBFromAModulo256 : Prop :=
  (∀ (v : Operand) (s : State), exec (.sub v) s =
    .next { s with
      a := BitVec.ofNat 8 (s.a.toNat + 256 - s.b.toNat), z := decide (s.a = s.b) }) ∧
  (∀ (s : State) (lo hi : Byte), s.life = .running → s.bytesAtPc = [0x06, lo, hi] →
    step s = .next { s with
      a := BitVec.ofNat 8 (s.a.toNat + 256 - s.b.toNat), z := decide (s.a = s.b)
      pc := s.pc + 3 })

/-- R105. -/
def Obligations.JmpSetsPcToTheOperand : Prop :=
  (∀ (v : Operand) (s : State), exec (.jmp v) s = .next { s with pc := v }) ∧
  (∀ (s : State) (lo hi : Byte) (x : Addr), s.life = .running → s.bytesAtPc = [0x07, lo, hi] →
    x.toNat = lo.toNat + 256 * hi.toNat → step s = .next { s with pc := x })

/-- R106. -/
def Obligations.JzSetsPcToTheOperandWhenZIsTrue : Prop :=
  (∀ (v : Operand) (s : State), exec (.jz v) s =
    .next { s with pc := if s.z = true then v else s.pc }) ∧
  (∀ (s : State) (lo hi : Byte) (x : Addr), s.life = .running → s.bytesAtPc = [0x08, lo, hi] →
    x.toNat = lo.toNat + 256 * hi.toNat →
    step s = .next { s with pc := if s.z = true then x else s.pc + 3 })

/-- R115. -/
def Obligations.OutAppendsAToOutput : Prop :=
  (∀ (v : Operand) (s : State), exec (.out v) s = .next { s with output := s.output ++ [s.a] }) ∧
  (∀ (s : State) (lo hi : Byte), s.life = .running → s.bytesAtPc = [0x09, lo, hi] →
    step s = .next { s with output := s.output ++ [s.a], pc := s.pc + 3 })

/-- R116. The final `PC` is `a + 3` under decision D1 (log entry 1). -/
def Obligations.HltEntersHalted : Prop :=
  (∀ (v : Operand) (s : State), exec (.hlt v) s = .next { s with life := .halted }) ∧
  (∀ (s : State) (lo hi : Byte), s.life = .running → s.bytesAtPc = [0xFF, lo, hi] →
    step s = .next { s with life := .halted, pc := s.pc + 3 })

/-! ## Frames: what an instruction leaves unchanged -/

/-- R14: LDA, LDA_MEM, ADD, SUB and LDB change their one destination register and `Z` only. -/
def Obligations.FrameOfDataProducingForms : Prop :=
  ∀ (i : Instr) (s t : State), exec i s = .next t →
    i.mnemonic ∈ [Mnemonic.LDA, .LDB, .LDA_MEM, .ADD, .SUB] →
    (i.mnemonic ≠ .LDB → t.b = s.b) ∧ (i.mnemonic = .LDB → t.a = s.a) ∧
    t.pc = s.pc ∧ t.life = s.life ∧ t.fault = s.fault ∧ t.output = s.output ∧
    t.steps = s.steps ∧ ∀ x, t.load x = s.load x

/-- R14, R88: STA changes the cell its operand addresses and nothing else. -/
def Obligations.FrameOfTheStoreForm : Prop :=
  ∀ (v : Operand) (s t : State), exec (.sta v) s = .next t →
    t.a = s.a ∧ t.b = s.b ∧ t.pc = s.pc ∧ t.z = s.z ∧ t.life = s.life ∧ t.fault = s.fault ∧
    t.output = s.output ∧ t.steps = s.steps ∧
    ∀ x, x ≠ effectiveAddress v → t.load x = s.load x

/-- R14, R105, R106: JMP and JZ change `PC` only. -/
def Obligations.FrameOfControlTransferForms : Prop :=
  ∀ (i : Instr) (s t : State), exec i s = .next t → i.mnemonic ∈ [Mnemonic.JMP, .JZ] →
    t.a = s.a ∧ t.b = s.b ∧ t.z = s.z ∧ t.life = s.life ∧ t.fault = s.fault ∧
    t.output = s.output ∧ t.steps = s.steps ∧ ∀ x, t.load x = s.load x

/-- R14, R115, R116: OUT changes Output only, HLT the lifecycle state only. -/
def Obligations.FrameOfOutputAndHaltForms : Prop :=
  ∀ (i : Instr) (s t : State), exec i s = .next t → i.mnemonic ∈ [Mnemonic.OUT, .HLT] →
    t.a = s.a ∧ t.b = s.b ∧ t.pc = s.pc ∧ t.z = s.z ∧ t.fault = s.fault ∧ t.steps = s.steps ∧
    (i.mnemonic = .OUT → t.life = s.life) ∧ (i.mnemonic = .HLT → t.output = s.output) ∧
    ∀ x, t.load x = s.load x

/-! ## Who reads and writes a piece of state: rules over all instructions -/

/-- R10: `A` is 0 at reset, written by LDA, LDA_MEM, ADD and SUB alone, and has no influence on any
instruction but STA, ADD, SUB and OUT. -/
def Obligations.RegisterAIsReadAndWrittenByNoOtherInstruction : Prop :=
  State.reset.a = 0 ∧
  (∀ (i : Instr) (s t : State), exec i s = .next t →
    i.mnemonic ∉ [Mnemonic.LDA, .LDA_MEM, .ADD, .SUB] → t.a = s.a) ∧
  (∀ (i : Instr) (s : State) (a : Byte), i.mnemonic ∉ [Mnemonic.STA, .ADD, .SUB, .OUT] →
    ∃ t, exec i s = .next t ∧ exec i { s with a := a } =
      .next { t with a := if i.mnemonic ∈ [Mnemonic.LDA, .LDA_MEM] then t.a else a })

/-- R11: `B` is 0 at reset, written by LDB alone, and has no influence on any instruction but ADD and
SUB. -/
def Obligations.RegisterBIsReadAndWrittenByNoOtherInstruction : Prop :=
  State.reset.b = 0 ∧
  (∀ (i : Instr) (s t : State), exec i s = .next t → i.mnemonic ≠ .LDB → t.b = s.b) ∧
  (∀ (i : Instr) (s : State) (b : Byte), i.mnemonic ∉ [Mnemonic.ADD, .SUB] →
    ∃ t, exec i s = .next t ∧
      exec i { s with b := b } = .next { t with b := if i.mnemonic = .LDB then t.b else b })

/-- R13: `Z` is false at reset; each of the five data-producing instructions sets it to "the value just
written is 0", the other five leave it; and it has no influence on any instruction but JZ. -/
def Obligations.ZeroFlagRule : Prop :=
  State.reset.z = false ∧
  (∀ (i : Instr) (s t : State), exec i s = .next t →
    t.z = (if i.mnemonic ∈ [Mnemonic.LDA, .LDA_MEM, .ADD, .SUB] then decide (t.a.toNat = 0)
      else if i.mnemonic = .LDB then decide (t.b.toNat = 0) else s.z)) ∧
  (∀ (i : Instr) (s : State) (z : Bool), i.mnemonic ≠ .JZ →
    ∃ t, exec i s = .next t ∧ exec i { s with z := z } = .next { t with
      z := if i.mnemonic ∈ [Mnemonic.LDA, .LDB, .LDA_MEM, .ADD, .SUB] then t.z else z })

/-- R15, R16, R18, R23: the lifecycle state, the fault record, Output and the step count have no
influence on any instruction; none writes the record or the count; and Output is only appended to. -/
def Obligations.NoInstructionReadsStatusOutputOrStepCount : Prop :=
  ∀ (i : Instr) (s : State) (l : Lifecycle) (f : Option FaultRecord) (o : List Byte) (n : Nat),
    ∃ t added, exec i s = .next t ∧ t.output = s.output ++ added ∧
      exec i { s with life := l, fault := f, output := o, steps := n } =
        .next { t with
          life := if i.mnemonic = .HLT then .halted else l
          fault := f, output := o ++ added, steps := n }

/-- R12: no instruction reads `PC`: it is changed by JMP and JZ alone, and has no influence on any
other piece of state. -/
def Obligations.NoInstructionReadsPc : Prop :=
  ∀ (i : Instr) (s : State) (p : Addr), ∃ t, exec i s = .next t ∧
    (i.mnemonic ∉ [Mnemonic.JMP, .JZ] → t.pc = s.pc) ∧
    exec i { s with pc := p } = .next { t with
      pc := if i.mnemonic = .JMP ∨ (i.mnemonic = .JZ ∧ s.z = true) then i.operand else p }

/-! ## Memory over steps -/

/-- R39 (b): a step changes no cell but the one its own STA addresses, and that one takes `A`. -/
def Obligations.OnlyStaChangesMemory : Prop :=
  ∀ (s t : State) (x : Addr), step s = .next t → t.load x ≠ s.load x →
    s.nextInstr = some (.sta x) ∧ t.load x = s.a

/-- R39: a cell keeps its value through any number of steps in which no STA addresses it, so a read
gives the most recent write. -/
def Obligations.CellKeepsItsValueUntilStored : Prop :=
  ∀ (k : Nat) (s : State) (x : Addr),
    (∀ j < k, (s.afterSteps j).nextInstr ≠ some (.sta x)) →
    (s.afterSteps k).load x = s.load x

/-- R42 (decision D14, log entry 7): a byte stored where the next instruction begins is the opcode the
next step decodes. The second clause, that an illegal byte makes that step end FAULTED, is R130 under
decision D3 (log entry 2). -/
def Obligations.StoredByteIsTheNextOpcode : Prop :=
  ∀ (s t : State) (v : Operand), s.nextInstr = some (.sta v) → step s = .next t → v = s.pc + 3 →
    (∀ m, Mnemonic.ofOpcode s.a = some m →
      ∃ w, t.nextInstr = some (m.instr w) ∧
        w.toNat = (t.load (v + 1)).toNat + 256 * (t.load (v + 2)).toNat) ∧
    (Mnemonic.ofOpcode s.a = none → ∃ u, step t = .next u ∧ u.life = .faulted)

/-- R88: "STA followed by LDA_MEM at the same address round-trips the stored byte exactly." -/
def Obligations.StoreThenLoadRoundTrips : Prop :=
  ∀ (v : Operand) (s : State), ∃ t u, exec (.sta v) s = .next t ∧ exec (.ldaMem v) t = .next u ∧
    u.a = s.a ∧ u.z = decide (s.a.toNat = 0) ∧ u.b = s.b

/-! ## Arithmetic -/

/-- R97: ADD is commutative in its sources, and SUB and ADD with one `B` undo each other. -/
def Obligations.AddAndSubUndoEachOther : Prop :=
  ∀ (v w : Operand) (s : State),
    (∃ t u, exec (.add v) s = .next t ∧ exec (.sub w) t = .next u ∧ u.a = s.a) ∧
    (∃ t u, exec (.sub v) s = .next t ∧ exec (.add w) t = .next u ∧ u.a = s.a) ∧
    (∃ t u, exec (.add v) s = .next t ∧ exec (.add v) { s with a := s.b, b := s.a } = .next u ∧
      u.a = t.a ∧ u.z = t.z)

/-! ## Runs: flag and output over any number of steps -/

/-- R19 (d): after any number of steps `Z` describes the last value a data-producing instruction wrote
in them, and is as it was if there was none. -/
def Obligations.ZeroFlagTracksTheLastValueProduced : Prop :=
  ∀ (k : Nat) (s : State), (s.afterSteps k).z =
    match (s.producedIn k).getLast? with
    | none => s.z
    | some r => decide (r.toNat = 0)

/-- R18, R25 (decisions D12 and D13, log entry 6): Output is what it was with the values the executed
OUTs presented appended in order. -/
def Obligations.OutputRecordsThePresentedValues : Prop :=
  (∀ (s : State) (r : Byte), s.presents = some r ↔ (∃ v, s.nextInstr = some (.out v)) ∧ r = s.a) ∧
  (∀ (k : Nat) (s : State), (s.afterSteps k).output = s.output ++ s.presentedIn k)

/-! ## The run controller -/

/-- R80: a run ends after step `k`, the least after which the core is not RUNNING, or the budget if
there is none; its final state is the state after `k` steps, with `k` steps counted (R23;
log entry 11 says where they are counted). -/
def Obligations.RunEndsAtTheFirstTerminalStateOrTheBudget : Prop :=
  ∀ (n : Nat) (s : State), s.Inv → ∃ k r, run n s = .next r ∧ k ≤ n ∧
    (∀ j < k, (s.afterSteps j).life = .running) ∧
    (k = n ∨ (s.afterSteps k).life ≠ .running) ∧
    r.final = { s.afterSteps k with steps := k }

/-- R79, R141, R149: the verdict is read off the final state, the lifecycle state before the budget
(decision D5, log entry 5); Halted alone is no failure. -/
def Obligations.VerdictReportsTheFinalState : Prop :=
  ∀ (n : Nat) (s : State) (r : RunResult), run n s = .next r →
    (r.verdict = .halted ↔ r.final.life = .halted) ∧
    (∀ b p, r.verdict = .unknownOpcode b p ↔
      r.final.life = .faulted ∧ r.final.fault = some ⟨b, p⟩) ∧
    (∀ m, r.verdict = .stepBudgetExceeded m ↔ r.final.life = .running ∧ m = n) ∧
    (r.final.life = .running → r.final.steps = n) ∧
    (r.verdict.failure = none ↔ r.verdict = .halted)

/-- R141: a `JMP` to its own address reaches StepBudgetExceeded for every budget, and changes
nothing. -/
def Obligations.SelfJumpExceedsEveryBudget : Prop :=
  ∀ (n : Nat) (s : State) (lo hi : Byte), s.life = .running → s.bytesAtPc = [0x07, lo, hi] →
    s.pc.toNat = lo.toNat + 256 * hi.toNat →
    run n s = .next ⟨.stepBudgetExceeded n, { s with steps := n }⟩

/-- R178: a run that ended in a terminal state ends the same under every larger budget. -/
def Obligations.LargerBudgetGivesTheSameEnd : Prop :=
  ∀ (n m : Nat) (s : State) (r : RunResult), n ≤ m → run n s = .next r →
    r.final.life ≠ .running → run m s = .next r

/-! ## The loader -/

/-- R168, R169 (decision D9, log entry 10): the loader answers an image for exactly the well-formed
programs. -/
def Obligations.LoaderAcceptsExactlyWellFormedPrograms : Prop :=
  ∀ (p : SourceProgram) (s : State),
    (∃ t, loadProgram p s = .next t) ↔ SourceProgram.wf p = true

/-- R168, R169 (decisions D9 and D10, log entry 10): what the loader reports. A failure names the
unknown mnemonic of some pair; a refusal names an operand or a length out of range; and a program
with an unknown mnemonic and no operand out of range is a failure, whatever its length. That it is a
failure also when the program is too long (the length is reported last) is the model's DESIGN CHOICE,
log entry 10. -/
def Obligations.LoaderNamesWhatIsWrong : Prop :=
  ∀ (p : SourceProgram) (s : State),
    (∀ f, loadProgram p s = .fault f →
      ∃ q ∈ p, q.mnemonicKnown = false ∧ f = .unknownMnemonic q.mnemonic) ∧
    (∀ r, loadProgram p s = .refused r →
      (∃ q ∈ p, ∃ v, q.operand = some v ∧ 65535 < v ∧ r = .operandOutOfRange v) ∨
      (21845 < p.length ∧ r = .programTooLong p.length)) ∧
    ((∃ q ∈ p, q.mnemonicKnown = false) → (∀ q ∈ p, q.operandFits = true) →
      ∃ f, loadProgram p s = .fault f)

/-- R165, R166: instruction `k` of the program is encoded at `3k`, `3k+1`, `3k+2`. R167: the failsafe
byte at `3n`. Zero above it, and no other piece of state changed: R170 and R171, which the spec marks
as derived. -/
def Obligations.LoadedImage : Prop :=
  ∀ (p : SourceProgram) (t : State), loadProgram p State.reset = .next t →
    (∀ k q, p[k]? = some q → ∃ m, Mnemonic.ofName q.mnemonic = some m ∧
      t.load (BitVec.ofNat 16 (3 * k)) = m.opcode ∧
      t.load (BitVec.ofNat 16 (3 * k + 1)) = BitVec.ofNat 8 (q.operand.getD 0) ∧
      t.load (BitVec.ofNat 16 (3 * k + 2)) = BitVec.ofNat 8 (q.operand.getD 0 / 256)) ∧
    t.load (BitVec.ofNat 16 (3 * p.length)) = 0xFF ∧
    (∀ x : Addr, 3 * p.length < x.toNat → t.load x = 0) ∧
    { t with mem := [] } = State.reset

/-- R165, R167: a core whose `PC` is at `3k` of a loaded image has pair `k` as its next instruction;
at `3n`, off the end of the program, its step halts. -/
def Obligations.LoadedProgramIsWhatTheCoreDecodes : Prop :=
  ∀ (p : SourceProgram) (is : List Instr) (t : State),
    assembleProgram p = .next is → loadProgram p State.reset = .next t →
    (∀ k i, is[k]? = some i →
      State.nextInstr { t with pc := BitVec.ofNat 16 (3 * k) } = some i) ∧
    (∃ u, step { t with pc := BitVec.ofNat 16 (3 * p.length) } = .next u ∧ u.life = .halted)

/-! ## The host -/

/-- R162, R172, R28 (decisions D17, D20 and D21, log entry 8): what each host action does, when it is
accepted, and when the host can observe. That reset gives the newly constructed instance from any
state, memory cleared too, is R160 under decision D8 (log entry 12). -/
def Obligations.HostActionsFollowTheLifeOfAnInstance : Prop :=
  ∀ c : Session,
    c.act .reset = .next Session.fresh ∧
    (∀ p c', c.act (.load p) = .next c' ↔
      c.phase = .fresh ∧ loadProgram p c.machine = .next c'.machine ∧ c'.phase = .loaded) ∧
    (∀ x v c', c.act (.poke x v) = .next c' ↔
      c.phase = .loaded ∧ c' = ⟨c.machine.store x v, .loaded⟩) ∧
    (∀ n c', c.act (.run n) = .next c' ↔ (∀ v, c.phase ≠ .ended v) ∧
      ∃ v, c'.phase = .ended v ∧ run (n.getD 100000) c.machine = .next ⟨v, c'.machine⟩) ∧
    (c.observe.isSome = true ↔ ∃ v, c.phase = .ended v)

/-- R162 (decisions D8 and D21, log entries 12 and 8): from any state of an instance, reset, the load
of any well-formed program, any pokes and a run with any budget go through, and the host can then
observe. -/
def Obligations.FullLifeOfAnInstanceGoesThrough : Prop :=
  ∀ (c : Session) (p : SourceProgram) (pokes : List (Addr × Byte)) (n : Option Nat),
    SourceProgram.wf p = true →
    ∃ c', Session.acts ([.reset, .load p] ++ pokes.map (fun q => .poke q.1 q.2) ++ [.run n]) c
        = .next c' ∧ c'.observe.isSome = true

/-- R146: instances stepped in any interleaving end as each would alone (log entry 13). -/
def Obligations.InstancesDoNotInteract : Prop :=
  ∀ (schedule : List Nat) (f : Fleet), ∃ g, Fleet.follow schedule f = .next g ∧
    g.length = f.length ∧
    ∀ (k : Nat) (s : State), f[k]? = some s → g[k]? = some (s.afterSteps (schedule.count k))

/-! ## The memory port -/

/-- R24, R45 (decision D12, log entry 6): the accesses of a step and their order. That a core that is
not RUNNING makes none is R76, decision D7 (log entry 4); that ADD, SUB, OUT and HLT read their
ignored operand bytes is decision D2 (log entry 14). -/
def Obligations.MemoryPortAccessOrder : Prop :=
  ∀ s : State,
    (s.life ≠ .running → s.accesses = []) ∧
    (s.life = .running → Mnemonic.ofOpcode (s.load s.pc) = none →
      s.accesses = [.read s.pc (s.load s.pc)]) ∧
    (∀ i, s.nextInstr = some i → s.accesses =
      [.read s.pc (s.load s.pc), .read (s.pc + 1) (s.load (s.pc + 1)),
        .read (s.pc + 2) (s.load (s.pc + 2))] ++
      (if i.mnemonic = .LDA_MEM then [.read i.operand (s.load i.operand)]
        else if i.mnemonic = .STA then [.write i.operand s.a] else []))

/-- R24 (decision D12, log entry 6), R39: a step is determined by the registers and the bytes it
reads on the memory port: two cores alike but for memory, which agree on those bytes, make the same
accesses and take steps that differ in memory only. -/
def Obligations.StepDependsOnlyOnTheBytesItReads : Prop :=
  ∀ (s : State) (m : Memory),
    (∀ x r, Access.read x r ∈ s.accesses → State.load { s with mem := m } x = r) →
    State.accesses { s with mem := m } = s.accesses ∧
    ∃ t t', step s = .next t ∧ step { s with mem := m } = .next t' ∧ { t' with mem := t.mem } = t
end

