-- ==== Sys2Proof/Laws/Decode.lean ====
section
/-! SUPPORT. The small lemmas of the decoder and encoder. -/

namespace Sys2Proof

namespace Mnemonic

theorem ofOpcode_opcode (m : Mnemonic) : ofOpcode m.opcode = some m := by cases m <;> rfl

theorem opcode_of_ofOpcode {b : Byte} {m : Mnemonic} (h : ofOpcode b = some m) :
    m.opcode = b := by
  simp only [ofOpcode] at h
  split_ifs at h <;> cases h <;> simp_all [opcode]

/-- The 246 illegal bytes, as numbers (R56). -/
theorem ofOpcode_eq_none_iff (b : Byte) :
    ofOpcode b = none ↔ b.toNat = 0 ∨ (10 ≤ b.toNat ∧ b.toNat ≤ 254) := by
  revert b; decide

theorem mnemonic_instr (m : Mnemonic) (v : Operand) : (m.instr v).mnemonic = m := by cases m <;> rfl

theorem operand_instr (m : Mnemonic) (v : Operand) : (m.instr v).operand = v := by cases m <;> rfl

theorem ofName_name (m : Mnemonic) : ofName m.name = some m := by cases m <;> decide

theorem name_of_ofName {s : String} {m : Mnemonic} (h : ofName s = some m) : m.name = s := by
  simp only [ofName] at h
  split_ifs at h <;> cases h <;> simp_all [name]

end Mnemonic

theorem Instr.instr_mnemonic (i : Instr) : i.mnemonic.instr i.operand = i := by cases i <;> rfl

theorem toNat_assembleOperand (lo hi : Byte) :
    (assembleOperand lo hi).toNat = lo.toNat + 256 * hi.toNat := by
  have := lo.isLt; have := hi.isLt
  simp only [assembleOperand, BitVec.toNat_ofNat]; omega

theorem toNat_lowByte (v : Operand) : (lowByte v).toNat = v.toNat % 256 := by
  simp [lowByte]

theorem toNat_highByte (v : Operand) : (highByte v).toNat = v.toNat / 256 := by
  have := v.isLt
  simp only [highByte, BitVec.toNat_setWidth, BitVec.toNat_ushiftRight, Nat.shiftRight_eq_div_pow]
  omega

/-- Operand assembly undoes taking the operand apart. -/
theorem assembleOperand_bytes (v : Operand) : assembleOperand (lowByte v) (highByte v) = v := by
  apply BitVec.eq_of_toNat_eq
  rw [toNat_assembleOperand, toNat_lowByte, toNat_highByte]; omega

/-- An operand equals the assembled one if its number is `lo + 256 * hi` (R52). -/
theorem assembleOperand_eq {lo hi : Byte} {v : Operand} (h : v.toNat = lo.toNat + 256 * hi.toNat) :
    assembleOperand lo hi = v := by
  apply BitVec.eq_of_toNat_eq; rw [toNat_assembleOperand, h]

theorem lowByte_assembleOperand (lo hi : Byte) : lowByte (assembleOperand lo hi) = lo := by
  have := lo.isLt
  apply BitVec.eq_of_toNat_eq
  rw [toNat_lowByte, toNat_assembleOperand]; omega

theorem highByte_assembleOperand (lo hi : Byte) : highByte (assembleOperand lo hi) = hi := by
  have := lo.isLt
  apply BitVec.eq_of_toNat_eq
  rw [toNat_highByte, toNat_assembleOperand]; omega

/-- What the decoder answers on three bytes or more whose first is a legal opcode. -/
theorem decode_legal {b : Byte} {m : Mnemonic} (h : Mnemonic.ofOpcode b = some m) (lo hi : Byte)
    (rest : List Byte) :
    decode (b :: lo :: hi :: rest) = .ok (m.instr (assembleOperand lo hi), rest) := by
  simp only [decode, h]

/-- What it answers on bytes whose first is no legal opcode. -/
theorem decode_illegal {b : Byte} (h : Mnemonic.ofOpcode b = none) (rest : List Byte) :
    decode (b :: rest) = .error (.unknownOpcode b) := by
  simp only [decode, h]

/-- Everything that can be behind an instruction read from three bytes. -/
theorem decode_three {b lo hi : Byte} {i : Instr} {rest : List Byte}
    (h : decode [b, lo, hi] = .ok (i, rest)) :
    ∃ m, Mnemonic.ofOpcode b = some m ∧ i = m.instr (assembleOperand lo hi) ∧ rest = [] := by
  cases hb : Mnemonic.ofOpcode b with
  | none => rw [decode_illegal hb] at h; cases h
  | some m => rw [decode_legal hb] at h; cases h; exact ⟨m, rfl, rfl, rfl⟩

end Sys2Proof
end

