-- ==== Sys2Proof/Laws/State.lean ====
section
/-! SUPPORT. One lemma for each field of the state under each named update, so that no later proof
unfolds a record update. -/

namespace Sys2Proof.Machine.State

variable (s : State)

/-! `store` -/

@[simp] theorem store_a (x : Addr) (v : Byte) : (s.store x v).a = s.a := rfl
@[simp] theorem store_b (x : Addr) (v : Byte) : (s.store x v).b = s.b := rfl
@[simp] theorem store_pc (x : Addr) (v : Byte) : (s.store x v).pc = s.pc := rfl
@[simp] theorem store_z (x : Addr) (v : Byte) : (s.store x v).z = s.z := rfl
@[simp] theorem store_life (x : Addr) (v : Byte) : (s.store x v).life = s.life := rfl
@[simp] theorem store_fault (x : Addr) (v : Byte) : (s.store x v).fault = s.fault := rfl
@[simp] theorem store_mem (x : Addr) (v : Byte) : (s.store x v).mem = Memory.write s.mem x.toNat v := rfl
@[simp] theorem store_output (x : Addr) (v : Byte) : (s.store x v).output = s.output := rfl
@[simp] theorem store_steps (x : Addr) (v : Byte) : (s.store x v).steps = s.steps := rfl

/-! `outputAppend` -/

@[simp] theorem outputAppend_a (v : Byte) : (s.outputAppend v).a = s.a := rfl
@[simp] theorem outputAppend_b (v : Byte) : (s.outputAppend v).b = s.b := rfl
@[simp] theorem outputAppend_pc (v : Byte) : (s.outputAppend v).pc = s.pc := rfl
@[simp] theorem outputAppend_z (v : Byte) : (s.outputAppend v).z = s.z := rfl
@[simp] theorem outputAppend_life (v : Byte) : (s.outputAppend v).life = s.life := rfl
@[simp] theorem outputAppend_fault (v : Byte) : (s.outputAppend v).fault = s.fault := rfl
@[simp] theorem outputAppend_mem (v : Byte) : (s.outputAppend v).mem = s.mem := rfl
@[simp] theorem outputAppend_output (v : Byte) : (s.outputAppend v).output = s.output ++ [v] := rfl
@[simp] theorem outputAppend_steps (v : Byte) : (s.outputAppend v).steps = s.steps := rfl
@[simp] theorem outputAppend_load (v : Byte) (y : Addr) : (s.outputAppend v).load y = s.load y := rfl

/-! `jump` -/

@[simp] theorem jump_a (target : Addr) : (s.jump target).a = s.a := rfl
@[simp] theorem jump_b (target : Addr) : (s.jump target).b = s.b := rfl
@[simp] theorem jump_pc (target : Addr) : (s.jump target).pc = target := rfl
@[simp] theorem jump_z (target : Addr) : (s.jump target).z = s.z := rfl
@[simp] theorem jump_life (target : Addr) : (s.jump target).life = s.life := rfl
@[simp] theorem jump_fault (target : Addr) : (s.jump target).fault = s.fault := rfl
@[simp] theorem jump_mem (target : Addr) : (s.jump target).mem = s.mem := rfl
@[simp] theorem jump_output (target : Addr) : (s.jump target).output = s.output := rfl
@[simp] theorem jump_steps (target : Addr) : (s.jump target).steps = s.steps := rfl
@[simp] theorem jump_load (target : Addr) (y : Addr) : (s.jump target).load y = s.load y := rfl

/-! `advance` -/

@[simp] theorem advance_a (n : Addr) : (s.advance n).a = s.a := rfl
@[simp] theorem advance_b (n : Addr) : (s.advance n).b = s.b := rfl
@[simp] theorem advance_pc (n : Addr) : (s.advance n).pc = s.pc + n := rfl
@[simp] theorem advance_z (n : Addr) : (s.advance n).z = s.z := rfl
@[simp] theorem advance_life (n : Addr) : (s.advance n).life = s.life := rfl
@[simp] theorem advance_fault (n : Addr) : (s.advance n).fault = s.fault := rfl
@[simp] theorem advance_mem (n : Addr) : (s.advance n).mem = s.mem := rfl
@[simp] theorem advance_output (n : Addr) : (s.advance n).output = s.output := rfl
@[simp] theorem advance_steps (n : Addr) : (s.advance n).steps = s.steps := rfl
@[simp] theorem advance_load (n : Addr) (y : Addr) : (s.advance n).load y = s.load y := rfl

/-! `halt` -/

@[simp] theorem halt_a : (s.halt).a = s.a := rfl
@[simp] theorem halt_b : (s.halt).b = s.b := rfl
@[simp] theorem halt_pc : (s.halt).pc = s.pc := rfl
@[simp] theorem halt_z : (s.halt).z = s.z := rfl
@[simp] theorem halt_life : (s.halt).life = .halted := rfl
@[simp] theorem halt_fault : (s.halt).fault = s.fault := rfl
@[simp] theorem halt_mem : (s.halt).mem = s.mem := rfl
@[simp] theorem halt_output : (s.halt).output = s.output := rfl
@[simp] theorem halt_steps : (s.halt).steps = s.steps := rfl
@[simp] theorem halt_load (y : Addr) : (s.halt).load y = s.load y := rfl

/-! `takeUnknownOpcode` -/

@[simp] theorem takeUnknownOpcode_a (b : Byte) (x : Addr) : (s.takeUnknownOpcode b x).a = s.a := rfl
@[simp] theorem takeUnknownOpcode_b (b : Byte) (x : Addr) : (s.takeUnknownOpcode b x).b = s.b := rfl
@[simp] theorem takeUnknownOpcode_pc (b : Byte) (x : Addr) : (s.takeUnknownOpcode b x).pc = s.pc := rfl
@[simp] theorem takeUnknownOpcode_z (b : Byte) (x : Addr) : (s.takeUnknownOpcode b x).z = s.z := rfl
@[simp] theorem takeUnknownOpcode_life (b : Byte) (x : Addr) : (s.takeUnknownOpcode b x).life = .faulted := rfl
@[simp] theorem takeUnknownOpcode_fault (b : Byte) (x : Addr) : (s.takeUnknownOpcode b x).fault = some ⟨b, x⟩ := rfl
@[simp] theorem takeUnknownOpcode_mem (b : Byte) (x : Addr) : (s.takeUnknownOpcode b x).mem = s.mem := rfl
@[simp] theorem takeUnknownOpcode_output (b : Byte) (x : Addr) : (s.takeUnknownOpcode b x).output = s.output := rfl
@[simp] theorem takeUnknownOpcode_steps (b : Byte) (x : Addr) : (s.takeUnknownOpcode b x).steps = s.steps := rfl
@[simp] theorem takeUnknownOpcode_load (b : Byte) (x : Addr) (y : Addr) : (s.takeUnknownOpcode b x).load y = s.load y := rfl

/-! `produceA` -/

@[simp] theorem produceA_a (r : Byte) : (s.produceA r).a = r := rfl
@[simp] theorem produceA_b (r : Byte) : (s.produceA r).b = s.b := rfl
@[simp] theorem produceA_pc (r : Byte) : (s.produceA r).pc = s.pc := rfl
@[simp] theorem produceA_z (r : Byte) : (s.produceA r).z = zeroFlag r := rfl
@[simp] theorem produceA_life (r : Byte) : (s.produceA r).life = s.life := rfl
@[simp] theorem produceA_fault (r : Byte) : (s.produceA r).fault = s.fault := rfl
@[simp] theorem produceA_mem (r : Byte) : (s.produceA r).mem = s.mem := rfl
@[simp] theorem produceA_output (r : Byte) : (s.produceA r).output = s.output := rfl
@[simp] theorem produceA_steps (r : Byte) : (s.produceA r).steps = s.steps := rfl
@[simp] theorem produceA_load (r : Byte) (y : Addr) : (s.produceA r).load y = s.load y := rfl

/-! `produceB` -/

@[simp] theorem produceB_a (r : Byte) : (s.produceB r).a = s.a := rfl
@[simp] theorem produceB_b (r : Byte) : (s.produceB r).b = r := rfl
@[simp] theorem produceB_pc (r : Byte) : (s.produceB r).pc = s.pc := rfl
@[simp] theorem produceB_z (r : Byte) : (s.produceB r).z = zeroFlag r := rfl
@[simp] theorem produceB_life (r : Byte) : (s.produceB r).life = s.life := rfl
@[simp] theorem produceB_fault (r : Byte) : (s.produceB r).fault = s.fault := rfl
@[simp] theorem produceB_mem (r : Byte) : (s.produceB r).mem = s.mem := rfl
@[simp] theorem produceB_output (r : Byte) : (s.produceB r).output = s.output := rfl
@[simp] theorem produceB_steps (r : Byte) : (s.produceB r).steps = s.steps := rfl
@[simp] theorem produceB_load (r : Byte) (y : Addr) : (s.produceB r).load y = s.load y := rfl

/-! Reset and the raw updates of `PC` and the step count -/

@[simp] theorem reset_load (y : Addr) : reset.load y = 0 := rfl
@[simp] theorem withPc_load (p y : Addr) : State.load { s with pc := p } y = s.load y := rfl
@[simp] theorem withSteps_load (n : Nat) (y : Addr) :
    State.load { s with steps := n } y = s.load y := rfl

end Sys2Proof.Machine.State
end

