-- ==== Sys2Proof/Laws/Memory.lean ====
section
/-! SUPPORT. The laws of memory: a read after a write, and the canonical form kept by every
operation. -/

namespace Sys2Proof.Machine

namespace Memory

theorem wf_nil : wf [] := ⟨List.Pairwise.nil, by simp⟩

/-- An erased address reads as an unlisted one, every other address as before. -/
theorem read_erase (m : Memory) (x y : Nat) :
    read (erase m x) y = if y = x then unlisted else read m y := by
  induction m with
  | nil => simp [erase, read]
  | cons c rest ih =>
    obtain ⟨k, w⟩ := c
    rw [erase] at ih
    by_cases hk : k = x
    · subst hk
      simp only [erase, List.filter, bne_self_eq_false, ih, read]
      split_ifs <;> simp_all
    · simp only [erase, List.filter, bne_iff_ne.mpr hk, read, ih]
      split_ifs <;> simp_all

/-- An inserted entry is found if no entry of its address was there, every other address reads as
before. -/
theorem read_insert (m : Memory) (x : Nat) (v : Byte) (y : Nat) (h : ∀ c ∈ m, c.1 ≠ x) :
    read (insert x v m) y = if y = x then v else read m y := by
  induction m with
  | nil => simp [insert, read, eq_comm]
  | cons c rest ih =>
    obtain ⟨k, w⟩ := c
    have hk : k ≠ x := h (k, w) (by simp)
    have ih := ih fun c hc => h c (by simp [hc])
    by_cases hlt : x < k
    · simp only [insert, if_pos hlt, read, eq_comm (a := x)]
    · simp only [insert, if_neg hlt, read, ih]
      by_cases hy : y = x
      · rw [if_pos hy, if_pos hy, if_neg (hy ▸ hk)]
      · rw [if_neg hy, if_neg hy]

theorem mem_erase {m : Memory} {x : Nat} {c : Host.Cell} : c ∈ erase m x ↔ c ∈ m ∧ c.1 ≠ x := by
  simp [erase]

theorem mem_insert {m : Memory} {x : Nat} {v : Byte} {c : Host.Cell} :
    c ∈ insert x v m ↔ c = (x, v) ∨ c ∈ m := by
  induction m with
  | nil => simp [insert]
  | cons d rest ih => simp only [insert]; split_ifs <;> simp [ih]; tauto

/-- Everything a write does to reads: the written cell holds the value, every other cell is as it
was (R35). It holds of any list, canonical or not. -/
theorem read_write (m : Memory) (x : Nat) (v : Byte) (y : Nat) :
    read (write m x v) y = if y = x then v else read m y := by
  simp only [write]
  split_ifs with hv hy hy
  · rw [read_erase, if_pos hy, hv]
  · rw [read_erase, if_neg hy]
  · rw [read_insert _ _ _ _ fun c hc => (mem_erase.mp hc).2, if_pos hy]
  · rw [read_insert _ _ _ _ fun c hc => (mem_erase.mp hc).2, if_neg hy, read_erase, if_neg hy]

theorem pairwise_insert {m : Memory} {x : Nat} {v : Byte}
    (hm : m.Pairwise (fun c d => c.1 < d.1)) (hx : ∀ c ∈ m, c.1 ≠ x) :
    (insert x v m).Pairwise (fun c d => c.1 < d.1) := by
  induction m with
  | nil => simp [insert]
  | cons d rest ih =>
    rw [List.pairwise_cons] at hm
    have hd : d.1 ≠ x := hx d (by simp)
    simp only [insert]
    split_ifs with h
    · refine List.pairwise_cons.mpr ⟨fun c hc => ?_, List.pairwise_cons.mpr hm⟩
      rcases List.mem_cons.mp hc with rfl | hc
      · exact h
      · exact lt_trans h (hm.1 c hc)
    · refine List.pairwise_cons.mpr ⟨fun c hc => ?_, ih hm.2 fun c hc => hx c (by simp [hc])⟩
      rcases mem_insert.mp hc with rfl | hc
      · simp only; omega
      · exact hm.1 c hc

/-- A write keeps the canonical form. -/
theorem wf_write {m : Memory} (hm : wf m) {x : Nat} (hx : x < Config.memSize) (v : Byte) :
    wf (write m x v) := by
  have he : wf (erase m x) := ⟨hm.1.filter _, fun c hc => hm.2 c (mem_erase.mp hc).1⟩
  simp only [write]
  split_ifs with hv
  · exact he
  · refine ⟨pairwise_insert he.1 fun c hc => (mem_erase.mp hc).2, fun c hc => ?_⟩
    rcases mem_insert.mp hc with rfl | hc
    · exact ⟨hx, hv⟩
    · exact he.2 c hc

end Memory

namespace State

/-- Everything a store does to reads (R35). -/
theorem store_load (s : State) (x : Addr) (v : Byte) (y : Addr) :
    (s.store x v).load y = if y = x then v else s.load y := by
  simp only [load, store, Memory.read_write, BitVec.toNat_inj]

/-- A store keeps the canonical form: an address is below 65536 by its width. -/
theorem store_wf {s : State} (h : Memory.wf s.mem) (x : Addr) (v : Byte) :
    Memory.wf (s.store x v).mem := Memory.wf_write h x.isLt v

/-- A run of stores keeps the canonical form. -/
theorem storeBytes_wf {s : State} (h : Memory.wf s.mem) (x : Addr) (vs : List Byte) :
    Memory.wf (s.storeBytes x vs).mem := by
  induction vs generalizing s x with
  | nil => exact h
  | cons v vs ih => exact ih (store_wf h x v) (x + 1)

/-- A run of stores changes memory only. -/
theorem storeBytes_eq (s : State) (x : Addr) (vs : List Byte) :
    s.storeBytes x vs = { s with mem := (s.storeBytes x vs).mem } := by
  induction vs generalizing s x with
  | nil => rfl
  | cons v vs ih => simpa [storeBytes, store] using ih (s.store x v) (x + 1)

theorem reset_wf : Memory.wf reset.mem := Memory.wf_nil

end State

end Sys2Proof.Machine
end

