-- ==== Sys2Proof/Laws/Exec.lean ====
section
/-! SUPPORT. What `exec` answers, once for each instruction, and what it never touches. -/

namespace Sys2Proof.Machine

section
variable (v : Operand) (s : State)

theorem exec_lda : exec (.lda v) s = .next (s.produceA (lowByte v)) := rfl
theorem exec_ldb : exec (.ldb v) s = .next (s.produceB (lowByte v)) := rfl
theorem exec_ldaMem : exec (.ldaMem v) s = .next (s.produceA (s.load v)) := rfl
theorem exec_sta : exec (.sta v) s = .next (s.store v s.a) := rfl
theorem exec_add : exec (.add v) s = .next (s.produceA (sum8 s.a s.b)) := rfl
theorem exec_sub : exec (.sub v) s = .next (s.produceA (difference8 s.a s.b)) := rfl
theorem exec_jmp : exec (.jmp v) s = .next (s.jump v) := rfl
theorem exec_jz : exec (.jz v) s = .next (if s.z then s.jump v else s) := rfl
theorem exec_out : exec (.out v) s = .next (s.outputAppend s.a) := rfl
theorem exec_hlt : exec (.hlt v) s = .next s.halt := rfl

end

/-- The exact sum, narrowed (R95, R97). -/
theorem toNat_sum8 (x y : Byte) : (sum8 x y).toNat = (x.toNat + y.toNat) % 256 := by
  simp only [sum8, wrap8, BitVec.toNat_ofInt]; omega

/-- The exact difference, narrowed to the non-negative remainder (R96, R97). -/
theorem toNat_difference8 (x y : Byte) :
    (difference8 x y).toNat = (x.toNat + 256 - y.toNat) % 256 := by
  have := y.isLt
  simp only [difference8, wrap8, BitVec.toNat_ofInt]; omega

/-- The flag of a value, through the value's number (R13). -/
theorem zeroFlag_eq (r : Byte) : zeroFlag r = decide (r.toNat = 0) := by
  simp only [zeroFlag]; revert r; decide

/-- A result is zero exactly when the two sources are equal (R96). -/
theorem difference8_eq_zero (x y : Byte) : difference8 x y = 0 ↔ x = y := by
  have := x.isLt; have := y.isLt
  rw [← BitVec.toNat_inj, ← BitVec.toNat_inj, toNat_difference8]
  simp only [BitVec.ofNat_eq_ofNat, BitVec.toNat_ofNat]
  omega

/-- No instruction of the core faults or is refused (R131, R118). -/
theorem exec_isNext (i : Instr) (s : State) : ∃ t, exec i s = .next t := by
  cases i <;> exact ⟨_, rfl⟩

/-- No instruction reads or writes the fault record or the step count (R16, R23). -/
theorem exec_keeps {i : Instr} {s t : State} (h : exec i s = .next t) :
    t.fault = s.fault ∧ t.steps = s.steps ∧
      t.life = (if i.mnemonic = .HLT then .halted else s.life) := by
  cases i <;> cases h <;> simp [Instr.mnemonic]
  split_ifs <;> simp

/-- Every byte of memory after an instruction: STA's cell takes `A`, every other is as it was. -/
theorem exec_load {i : Instr} {s t : State} (h : exec i s = .next t) (x : Addr) :
    t.load x = if i = .sta x then s.a else s.load x := by
  cases i
  case sta v =>
    cases h
    simp only [effectiveAddress, State.store_load, Instr.sta.injEq, eq_comm]
  case jz v => rw [exec_jz] at h; cases h; split_ifs <;> simp_all
  all_goals cases h; simp

/-- The step count has no effect on an instruction (R23). -/
theorem exec_withSteps {i : Instr} {s t : State} (h : exec i s = .next t) (n : Nat) :
    exec i { s with steps := n } = .next { t with steps := n } := by
  cases i <;> cases h <;> first | rfl | skip
  obtain ⟨_, _, _, z, _⟩ := s
  cases z <;> rfl

/-- An instruction keeps the canonical form of memory. -/
theorem exec_wf {i : Instr} {s t : State} (h : exec i s = .next t) (hs : Memory.wf s.mem) :
    Memory.wf t.mem := by
  cases i
  case sta v => cases h; exact State.store_wf hs _ _
  case jz v => rw [exec_jz] at h; cases h; split_ifs <;> exact hs
  all_goals cases h; exact hs

end Sys2Proof.Machine
end

