-- ==== Sys2Proof/Laws/Step.lean ====
section
/-! SUPPORT. What a step can do, said once. -/

namespace Sys2Proof.Machine

/-- Three advances of `PC` are the two of a fetch (R72). -/
theorem State.advance_advance (s : State) : (s.advance 1).advance 2 = s.advance 3 := by
  simp only [State.advance, BitVec.add_assoc]; rfl

theorem step_terminal {s : State} (h : s.life ≠ .running) : step s = .next s := by
  simp only [step, stepCore]; split <;> simp_all

theorem step_illegal {s : State} (h : s.life = .running)
    (hb : Mnemonic.ofOpcode (s.load s.pc) = none) :
    step s = .next ((s.advance 1).takeUnknownOpcode (s.load s.pc) s.pc) := by
  simp only [step, stepCore, h, cycle, State.fetchOpcode, hb]

theorem step_legal {s : State} {m : Mnemonic} (h : s.life = .running)
    (hb : Mnemonic.ofOpcode (s.load s.pc) = some m) :
    step s = exec (m.instr (assembleOperand (s.load (s.pc + 1)) (s.load (s.pc + 2))))
      (s.advance 3) := by
  have e : s.pc + 1 + 1 = s.pc + 2 := by rw [BitVec.add_assoc]; rfl
  simp only [step, stepCore, h, cycle, State.fetchOpcode, State.fetchOperand, hb,
    State.advance_advance, State.advance_load, State.advance_pc, e]

/-- Everything a step can do: nothing in a terminal state; the decode fault; or the decoded
instruction, on the state past it. -/
theorem step_cases {s t : State} (h : step s = .next t) :
    (s.life ≠ .running ∧ t = s) ∨
    (s.life = .running ∧ Mnemonic.ofOpcode (s.load s.pc) = none ∧
      t = (s.advance 1).takeUnknownOpcode (s.load s.pc) s.pc) ∨
    (s.life = .running ∧ ∃ m, Mnemonic.ofOpcode (s.load s.pc) = some m ∧
      exec (m.instr (assembleOperand (s.load (s.pc + 1)) (s.load (s.pc + 2)))) (s.advance 3)
        = .next t) := by
  by_cases hs : s.life = .running
  · cases hb : Mnemonic.ofOpcode (s.load s.pc) with
    | none => rw [step_illegal hs hb] at h; cases h; exact .inr (.inl ⟨hs, rfl, rfl⟩)
    | some m => rw [step_legal hs hb] at h; exact .inr (.inr ⟨hs, m, rfl, h⟩)
  · rw [step_terminal hs] at h; cases h; exact .inl ⟨hs, rfl⟩

/-- A step always answers a next state (R76, R131). -/
theorem step_isNext (s : State) : ∃ t, step s = .next t := by
  by_cases hs : s.life = .running
  · cases hb : Mnemonic.ofOpcode (s.load s.pc) with
    | none => exact ⟨_, step_illegal hs hb⟩
    | some m => rw [step_legal hs hb]; exact exec_isNext _ _
  · exact ⟨s, step_terminal hs⟩

end Sys2Proof.Machine
end

