-- ==== Sys2Proof/Laws/Port.lean ====
section
/-! SUPPORT. The instruction a step executes, and what a step does to memory, flag and output in its
terms. -/

namespace Sys2Proof.Machine

namespace State

theorem nextInstr_terminal {s : State} (h : s.life ≠ .running) : s.nextInstr = none := by
  unfold nextInstr; split <;> simp_all

theorem nextInstr_illegal {s : State} (hb : Mnemonic.ofOpcode (s.load s.pc) = none) :
    s.nextInstr = none := by
  unfold nextInstr; split
  · rw [bytesAtPc, decode_illegal hb]
  · rfl
  · rfl

theorem nextInstr_legal {s : State} {m : Mnemonic} (h : s.life = .running)
    (hb : Mnemonic.ofOpcode (s.load s.pc) = some m) :
    s.nextInstr = some (m.instr (assembleOperand (s.load (s.pc + 1)) (s.load (s.pc + 2)))) := by
  simp only [nextInstr, h, bytesAtPc, decode_legal hb]

/-- Everything that can be behind a next instruction. -/
theorem nextInstr_cases {s : State} {i : Instr} (h : s.nextInstr = some i) :
    s.life = .running ∧ ∃ m, Mnemonic.ofOpcode (s.load s.pc) = some m ∧
      i = m.instr (assembleOperand (s.load (s.pc + 1)) (s.load (s.pc + 2))) := by
  by_cases hs : s.life = .running
  · cases hb : Mnemonic.ofOpcode (s.load s.pc) with
    | none => rw [nextInstr_illegal hb] at h; cases h
    | some m => rw [nextInstr_legal hs hb] at h; cases h; exact ⟨hs, m, rfl, rfl⟩
  · rw [nextInstr_terminal hs] at h; cases h

/-- The three bytes at `PC`, one by one. -/
theorem bytesAtPc_eq {s : State} {b lo hi : Byte} (h : s.bytesAtPc = [b, lo, hi]) :
    s.load s.pc = b ∧ s.load (s.pc + 1) = lo ∧ s.load (s.pc + 2) = hi := by
  simpa [bytesAtPc] using h

end State

/-- A step that executes an instruction is its action on the state past it. -/
theorem step_nextInstr {s : State} {i : Instr} (h : s.nextInstr = some i) :
    step s = exec i (s.advance 3) := by
  obtain ⟨hs, m, hm, rfl⟩ := State.nextInstr_cases h
  exact step_legal hs hm

/-- A step of a RUNNING core whose three bytes at `PC` are known and begin with a legal opcode. -/
theorem step_bytes {s : State} {b lo hi : Byte} {m : Mnemonic} (hm : Mnemonic.ofOpcode b = some m)
    (hs : s.life = .running) (h : s.bytesAtPc = [b, lo, hi]) :
    step s = exec (m.instr (assembleOperand lo hi)) (s.advance 3) := by
  obtain ⟨h0, h1, h2⟩ := State.bytesAtPc_eq h
  rw [step_legal hs (h0 ▸ hm), h1, h2]

/-- Every byte of memory after a step. -/
theorem step_load {s t : State} (h : step s = .next t) (x : Addr) :
    t.load x = if s.nextInstr = some (.sta x) then s.a else s.load x := by
  rcases step_cases h with ⟨hs, rfl⟩ | ⟨_, hb, rfl⟩ | ⟨hs, m, hb, he⟩
  · simp [State.nextInstr_terminal hs]
  · simp [State.nextInstr_illegal hb]
  · rw [exec_load he, State.nextInstr_legal hs hb]; simp

/-- The flag after a step: of the value produced, if there is one (R13). -/
theorem step_z {s t : State} (h : step s = .next t) :
    t.z = match s.produces with | none => s.z | some r => zeroFlag r := by
  rcases step_cases h with ⟨hs, rfl⟩ | ⟨_, hb, rfl⟩ | ⟨hs, m, hb, he⟩
  · simp [State.produces, State.nextInstr_terminal hs]
  · simp [State.produces, State.nextInstr_illegal hb]
  · simp only [State.produces, State.nextInstr_legal hs hb]
    cases m <;> simp only [Mnemonic.instr] at he ⊢
    case JZ => rw [exec_jz] at he; cases he; split_ifs <;> rfl
    all_goals cases he; rfl

/-- Output after a step: with the value presented at its end, if there is one (R25). -/
theorem step_output {s t : State} (h : step s = .next t) :
    t.output = s.output ++ s.presents.toList := by
  rcases step_cases h with ⟨hs, rfl⟩ | ⟨_, hb, rfl⟩ | ⟨hs, m, hb, he⟩
  · simp [State.presents, State.nextInstr_terminal hs]
  · simp [State.presents, State.nextInstr_illegal hb]
  · simp only [State.presents, State.nextInstr_legal hs hb]
    cases m <;> simp only [Mnemonic.instr] at he ⊢
    case JZ => rw [exec_jz] at he; cases he; split_ifs <;> simp
    all_goals cases he; simp

/-- No step writes the step count (R23). -/
theorem step_steps {s t : State} (h : step s = .next t) : t.steps = s.steps := by
  rcases step_cases h with ⟨_, rfl⟩ | ⟨_, _, rfl⟩ | ⟨_, _, _, he⟩
  · rfl
  · rfl
  · exact (exec_keeps he).2.1

end Sys2Proof.Machine
end

