-- ==== Sys2Proof/Laws/Run.lean ====
section
/-! SUPPORT. Sequences of steps: the state after some steps, the run loop and sequencing. -/

namespace Sys2Proof.Machine

@[simp] theorem andThen_next {σ τ : Type} (s : σ) (f : σ → Host.Outcome τ Fault Refusal) :
    andThen (.next s) f = f s := rfl

/-- If a sequence answers a next state, both its parts did. -/
theorem andThen_eq_next {σ τ : Type} {o : Host.Outcome σ Fault Refusal}
    {f : σ → Host.Outcome τ Fault Refusal} {t : τ} (h : andThen o f = .next t) :
    ∃ s, o = .next s ∧ f s = .next t := by
  cases o with
  | next s => exact ⟨s, rfl, h⟩
  | fault r => cases h
  | refused r => cases h

namespace State

@[simp] theorem afterSteps_zero (s : State) : s.afterSteps 0 = s := rfl

theorem afterSteps_succ {s t : State} (h : step s = .next t) (k : Nat) :
    s.afterSteps (k + 1) = t.afterSteps k := by simp [afterSteps, h, nextOf]

theorem afterSteps_terminal {s : State} (h : s.life ≠ .running) (k : Nat) :
    s.afterSteps k = s := by
  induction k with
  | zero => rfl
  | succ k ih => rw [afterSteps_succ (step_terminal h), ih]

end State

/-- The step count has no effect on a step (R23). -/
theorem step_withSteps {s t : State} (h : step s = .next t) (n : Nat) :
    step { s with steps := n } = .next { t with steps := n } := by
  rcases step_cases h with ⟨hs, rfl⟩ | ⟨hs, hb, rfl⟩ | ⟨hs, m, hb, he⟩
  · exact step_terminal hs
  · exact step_illegal (s := { s with steps := n }) hs hb
  · rw [step_legal (s := { s with steps := n }) hs hb]
    exact exec_withSteps he n

theorem State.afterSteps_withSteps (k n : Nat) (s : State) :
    State.afterSteps k { s with steps := n } = { s.afterSteps k with steps := n } := by
  induction k generalizing s with
  | zero => rfl
  | succ k ih =>
    obtain ⟨t, ht⟩ := step_isNext s
    rw [State.afterSteps_succ ht, State.afterSteps_succ (step_withSteps ht n), ih]

theorem State.afterSteps_add (j k : Nat) (s : State) :
    (s.afterSteps j).afterSteps k = s.afterSteps (j + k) := by
  induction j generalizing s with
  | zero => simp
  | succ j ih =>
    obtain ⟨t, ht⟩ := step_isNext s
    rw [State.afterSteps_succ ht, ih, Nat.add_right_comm, State.afterSteps_succ ht]

/-- The loop ends at once in a terminal state. -/
theorem runLoop_terminal {s : State} (h : s.life ≠ .running) (n : Nat) :
    runLoop n s = .next s := by
  cases n with
  | zero => rfl
  | succ n => simp only [runLoop]; split <;> simp_all

/-- A running core with budget left takes one counted step (R78). -/
theorem runLoop_running {s t : State} (h : s.life = .running) (ht : step s = .next t) (n : Nat) :
    runLoop (n + 1) s = runLoop n { t with steps := t.steps + 1 } := by
  simp only [runLoop, h, countedStep, ht, andThen_next]

/-- Everything the loop can do: `k` counted steps, the core RUNNING before each, and at the end
either no budget or no longer RUNNING (R78). -/
theorem runLoop_eq (n : Nat) (s : State) : ∃ k,
    runLoop n s = .next { s.afterSteps k with steps := s.steps + k } ∧ k ≤ n ∧
    (∀ j < k, (s.afterSteps j).life = .running) ∧
    (k = n ∨ (s.afterSteps k).life ≠ .running) := by
  induction n generalizing s with
  | zero => exact ⟨0, rfl, le_refl _, by simp, .inl rfl⟩
  | succ n ih =>
    by_cases hs : s.life = .running
    · obtain ⟨t, ht⟩ := step_isNext s
      obtain ⟨k, hrun, hk, hbefore, hend⟩ := ih { t with steps := t.steps + 1 }
      simp only [State.afterSteps_withSteps] at hrun hbefore hend
      refine ⟨k + 1, ?_, by omega, ?_, ?_⟩
      · rw [runLoop_running hs ht, hrun, State.afterSteps_succ ht, step_steps ht]
        congr 2; omega
      · intro j hj
        cases j with
        | zero => exact hs
        | succ j => rw [State.afterSteps_succ ht]; exact hbefore j (by omega)
      · rw [State.afterSteps_succ ht]
        exact hend.imp (by omega) id
    · exact ⟨0, by rw [runLoop_terminal hs]; rfl, by omega, by simp, .inr hs⟩

theorem verdictOn_halted (n : Nat) {s : State} (h : s.life = .halted) :
    verdictOn n s = .next .halted := by simp only [verdictOn, h]

theorem verdictOn_running (n : Nat) {s : State} (h : s.life = .running) :
    verdictOn n s = .next (.stepBudgetExceeded n) := by simp only [verdictOn, h]

theorem verdictOn_faulted (n : Nat) {s : State} {r : FaultRecord} (h : s.life = .faulted)
    (hr : s.fault = some r) : verdictOn n s = .next (.unknownOpcode r.opcode r.pc) := by
  simp only [verdictOn, h, hr]

/-- What is behind the result of a run. -/
theorem run_cases {n : Nat} {s : State} {r : RunResult} (h : run n s = .next r) :
    runLoop n { s with steps := 0 } = .next r.final ∧
      verdictOn n r.final = .next r.verdict := by
  unfold run at h
  obtain ⟨t, hloop, h⟩ := andThen_eq_next h
  obtain ⟨v, hv, h⟩ := andThen_eq_next h
  cases h; exact ⟨hloop, hv⟩

end Sys2Proof.Machine
end

