-- ==== Sys2Proof/Laws/Loader.lean ====
section
/-! SUPPORT. The loader: what each of its operations can answer, and what it writes. -/

namespace Sys2Proof.Machine

theorem mnemonicKnown_iff (q : SourcePair) :
    q.mnemonicKnown = true ↔ ∃ m, Mnemonic.ofName q.mnemonic = some m := by
  simp only [SourcePair.mnemonicKnown, List.contains_iff_mem]
  constructor
  · intro h
    simp only [mnemonicSpellings, List.mem_cons, List.not_mem_nil, or_false] at h
    rcases h with h | h | h | h | h | h | h | h | h | h
    · exact ⟨.LDA, h ▸ Mnemonic.ofName_name .LDA⟩
    · exact ⟨.LDB, h ▸ Mnemonic.ofName_name .LDB⟩
    · exact ⟨.LDA_MEM, h ▸ Mnemonic.ofName_name .LDA_MEM⟩
    · exact ⟨.STA, h ▸ Mnemonic.ofName_name .STA⟩
    · exact ⟨.ADD, h ▸ Mnemonic.ofName_name .ADD⟩
    · exact ⟨.SUB, h ▸ Mnemonic.ofName_name .SUB⟩
    · exact ⟨.JMP, h ▸ Mnemonic.ofName_name .JMP⟩
    · exact ⟨.JZ, h ▸ Mnemonic.ofName_name .JZ⟩
    · exact ⟨.OUT, h ▸ Mnemonic.ofName_name .OUT⟩
    · exact ⟨.HLT, h ▸ Mnemonic.ofName_name .HLT⟩
  · rintro ⟨m, h⟩
    rw [← Mnemonic.name_of_ofName h]
    cases m <;> simp [mnemonicSpellings, Mnemonic.name]

/-- Everything one pair can give: the failure of R168, the refusal of R169, or its instruction. -/
theorem assemblePair_cases (q : SourcePair) :
    (q.mnemonicKnown = false ∧ assemblePair q = .fault (.unknownMnemonic q.mnemonic)) ∨
    (q.mnemonicKnown = true ∧ q.operandFits = false ∧ ∃ v, q.operand = some v ∧ 65535 < v ∧
      assemblePair q = .refused (.operandOutOfRange v)) ∨
    (q.wf = true ∧ q.operand.getD 0 ≤ 65535 ∧ ∃ m, Mnemonic.ofName q.mnemonic = some m ∧
      assemblePair q = .next (m.instr (BitVec.ofNat 16 (q.operand.getD 0)))) := by
  cases hm : Mnemonic.ofName q.mnemonic with
  | none =>
    refine .inl ⟨?_, by simp only [assemblePair, hm]⟩
    cases hk : q.mnemonicKnown with
    | false => rfl
    | true => obtain ⟨m, h⟩ := (mnemonicKnown_iff q).mp hk; rw [hm] at h; cases h
  | some m =>
    have hk := (mnemonicKnown_iff q).mpr ⟨m, hm⟩
    right
    cases ho : q.operand with
    | none =>
      refine .inr ⟨by simp [SourcePair.wf, hk, SourcePair.operandFits, ho], by simp, m, rfl, ?_⟩
      simp only [assemblePair, hm, operandOf, ho, andThen_next]; rfl
    | some v =>
      by_cases hv : v ≤ 65535
      · refine .inr ⟨by simp [SourcePair.wf, hk, SourcePair.operandFits, ho, hv], hv, m, rfl, ?_⟩
        simp only [assemblePair, hm, operandOf, ho, if_pos hv, andThen_next]; rfl
      · refine .inl ⟨hk, by simp [SourcePair.operandFits, ho]; omega, v, rfl, by omega, ?_⟩
        simp only [assemblePair, hm, operandOf, ho, if_neg hv]; rfl

/-- A program that is assembled is well formed, and each pair is the instruction it names. -/
theorem assembleProgram_next {p : SourceProgram} {is : List Instr}
    (h : assembleProgram p = .next is) :
    p.all SourcePair.wf = true ∧ is = p.map (fun q =>
      ((Mnemonic.ofName q.mnemonic).getD .HLT).instr (BitVec.ofNat 16 (q.operand.getD 0))) := by
  induction p generalizing is with
  | nil => cases h; simp
  | cons q p ih =>
    unfold assembleProgram at h
    obtain ⟨i, hi, h⟩ := andThen_eq_next h
    obtain ⟨js, hjs, h⟩ := andThen_eq_next h
    cases h
    obtain ⟨hall, hmap⟩ := ih hjs
    rcases assemblePair_cases q with ⟨_, e⟩ | ⟨_, _, v, _, _, e⟩ | ⟨hw, _, m, hm, e⟩
    · rw [e] at hi; cases hi
    · rw [e] at hi; cases hi
    · rw [e] at hi; cases hi
      simp only [List.all_cons, hw, hall, List.map_cons, hm, hmap]
      exact ⟨rfl, rfl⟩

/-- Well-formed pairs are assembled. -/
theorem assembleProgram_wf {p : SourceProgram} (h : p.all SourcePair.wf = true) :
    ∃ is, assembleProgram p = .next is := by
  induction p with
  | nil => exact ⟨[], rfl⟩
  | cons q p ih =>
    simp only [List.all_cons, Bool.and_eq_true] at h
    obtain ⟨is, hi⟩ := ih h.2
    rcases assemblePair_cases q with ⟨hk, _⟩ | ⟨_, hf, _⟩ | ⟨_, _, m, _, e⟩
    · simp [SourcePair.wf, hk] at h
    · simp [SourcePair.wf, hf] at h
    · exact ⟨_, by rw [assembleProgram, e, andThen_next, hi, andThen_next]⟩

/-- A failure of assembly names an unknown mnemonic of the program. -/
theorem assembleProgram_fault {p : SourceProgram} {f : Fault} (h : assembleProgram p = .fault f) :
    ∃ q ∈ p, q.mnemonicKnown = false ∧ f = .unknownMnemonic q.mnemonic := by
  induction p with
  | nil => cases h
  | cons q p ih =>
    unfold assembleProgram at h
    rcases assemblePair_cases q with ⟨hk, e⟩ | ⟨_, _, v, _, _, e⟩ | ⟨_, _, m, _, e⟩
    · rw [e] at h; cases h; exact ⟨q, by simp, hk, rfl⟩
    · rw [e] at h; cases h
    · rw [e, andThen_next] at h
      cases hp : assembleProgram p with
      | next is => rw [hp] at h; cases h
      | fault g =>
        rw [hp] at h; cases h
        obtain ⟨q', hq', h'⟩ := ih hp
        exact ⟨q', by simp [hq'], h'⟩
      | refused g => rw [hp] at h; cases h

/-- A refusal of assembly names an operand of the program that is out of range. -/
theorem assembleProgram_refused {p : SourceProgram} {r : Refusal}
    (h : assembleProgram p = .refused r) :
    ∃ q ∈ p, q.operandFits = false ∧ ∃ v, q.operand = some v ∧ 65535 < v ∧
      r = .operandOutOfRange v := by
  induction p with
  | nil => cases h
  | cons q p ih =>
    unfold assembleProgram at h
    rcases assemblePair_cases q with ⟨_, e⟩ | ⟨_, hf, v, ho, hv, e⟩ | ⟨_, _, m, _, e⟩
    · rw [e] at h; cases h
    · rw [e] at h; cases h; exact ⟨q, by simp, hf, v, ho, hv, rfl⟩
    · rw [e, andThen_next] at h
      cases hp : assembleProgram p with
      | next is => rw [hp] at h; cases h
      | refused g =>
        rw [hp] at h; cases h
        obtain ⟨q', hq', h'⟩ := ih hp
        exact ⟨q', by simp [hq'], h'⟩
      | fault g => rw [hp] at h; cases h

/-- Everything behind a load that goes through. -/
theorem loadProgram_next {p : SourceProgram} {s t : State} (h : loadProgram p s = .next t) :
    ∃ is, assembleProgram p = .next is ∧ is.length = p.length ∧ 3 * p.length + 1 ≤ 65536 ∧
      t = s.storeBytes 0 (image is) := by
  unfold loadProgram at h
  obtain ⟨is, hi, h⟩ := andThen_eq_next h
  have hl : is.length = p.length := by rw [(assembleProgram_next hi).2]; simp
  split_ifs at h with hc
  cases h
  simp only [Config.instrBytes, Config.memSize, hl] at hc
  exact ⟨is, hi, hl, hc, rfl⟩

/-- Every byte of memory after a run of stores that does not reach past the top. -/
theorem State.storeBytes_load (vs : List Byte) (s : State) (base : Nat)
    (h : base + vs.length ≤ 65536) (x : Addr) :
    (s.storeBytes (BitVec.ofNat 16 base) vs).load x =
      if base ≤ x.toNat then (vs[x.toNat - base]?).getD (s.load x) else s.load x := by
  induction vs generalizing s base with
  | nil => simp [State.storeBytes]
  | cons v vs ih =>
    have e : (BitVec.ofNat 16 base + 1 : Addr) = BitVec.ofNat 16 (base + 1) := by
      apply BitVec.eq_of_toNat_eq; simp
    simp only [List.length_cons] at h
    rw [State.storeBytes, e, ih _ (base + 1) (by omega), State.store_load]
    have hx : x = BitVec.ofNat 16 base ↔ x.toNat = base := by
      rw [← BitVec.toNat_inj, BitVec.toNat_ofNat, Nat.mod_eq_of_lt (by omega)]
    simp only [hx]
    by_cases hat : x.toNat = base
    · rw [if_neg (by omega), if_pos hat, if_pos (by omega)]; simp [hat]
    · rw [if_neg hat]
      by_cases hge : base ≤ x.toNat
      · rw [if_pos hge, if_pos (by omega),
          show x.toNat - base = (x.toNat - (base + 1)) + 1 by omega]
        simp
      · rw [if_neg hge, if_neg (by omega)]

theorem image_cons (i : Instr) (is : List Instr) : image (i :: is) =
    i.mnemonic.opcode :: lowByte i.operand :: highByte i.operand :: image is := rfl

theorem length_image (is : List Instr) : (image is).length = 3 * is.length + 1 := by
  induction is with
  | nil => rfl
  | cons i is ih => rw [image_cons]; simp [ih]; ring

/-- Instruction `k` of the image (R165). -/
theorem image_instr {is : List Instr} {k : Nat} {i : Instr} (h : is[k]? = some i) :
    (image is)[3 * k]? = some i.mnemonic.opcode ∧
    (image is)[3 * k + 1]? = some (lowByte i.operand) ∧
    (image is)[3 * k + 2]? = some (highByte i.operand) := by
  induction is generalizing k with
  | nil => simp at h
  | cons j is ih =>
    rw [image_cons]
    cases k with
    | zero => simp at h; subst h; exact ⟨rfl, rfl, rfl⟩
    | succ k => rw [show 3 * (k + 1) = 3 * k + 1 + 1 + 1 by ring]; exact ih (by simpa using h)

/-- The last byte of the image is the failsafe (R167). -/
theorem image_failsafe (is : List Instr) : (image is)[3 * is.length]? = some 0xFF := by
  induction is with
  | nil => rfl
  | cons i is ih =>
    rw [image_cons, List.length_cons, show 3 * (is.length + 1) = 3 * is.length + 1 + 1 + 1 by ring]
    exact ih

/-- The bytes of a loaded machine, and that the load changed nothing else (R170, R171). -/
theorem loadProgram_reset {p : SourceProgram} {t : State} {is : List Instr}
    (h : loadProgram p State.reset = .next t) (hi : assembleProgram p = .next is) :
    is.length = p.length ∧ 3 * p.length + 1 ≤ 65536 ∧
    (∀ n, n < 65536 → t.load (BitVec.ofNat 16 n) = ((image is)[n]?).getD 0) ∧
    { t with mem := [] } = State.reset := by
  obtain ⟨js, hj, hl, hc, rfl⟩ := loadProgram_next h
  rw [hi] at hj; cases hj
  refine ⟨hl, hc, fun n hn => ?_, ?_⟩
  · have := State.storeBytes_load (image is) State.reset 0 (by rw [length_image, hl]; omega)
      (BitVec.ofNat 16 n)
    rw [show (0 : Addr) = BitVec.ofNat 16 0 from rfl, this]
    simp [Nat.mod_eq_of_lt hn]
  · rw [State.storeBytes_eq]; rfl

end Sys2Proof.Machine
end

