-- ==== Sys2Proof/Laws/PerInstr.lean ====
section
/-! SUPPORT. Facts about every instruction as syntax, one lemma for each constructor. -/

namespace Sys2Proof.Laws

/-! Every instruction is encoded in 3 bytes (R50), whatever its operand. -/
namespace EncodeLength

def Statement (i : Instr) : Prop := (encode i).length = Config.instrBytes

theorem lda (v : Operand) : Statement (.lda v) := rfl
theorem ldb (v : Operand) : Statement (.ldb v) := rfl
theorem ldaMem (v : Operand) : Statement (.ldaMem v) := rfl
theorem sta (v : Operand) : Statement (.sta v) := rfl
theorem add (v : Operand) : Statement (.add v) := rfl
theorem sub (v : Operand) : Statement (.sub v) := rfl
theorem jmp (v : Operand) : Statement (.jmp v) := rfl
theorem jz (v : Operand) : Statement (.jz v) := rfl
theorem out (v : Operand) : Statement (.out v) := rfl
theorem hlt (v : Operand) : Statement (.hlt v) := rfl

end EncodeLength

/-! Every instruction is well formed: no operand is illegal with a legal opcode (R55). -/
namespace WellFormed

def Statement (i : Instr) : Prop := i.wf = true

theorem lda (v : Operand) : Statement (.lda v) := rfl
theorem ldb (v : Operand) : Statement (.ldb v) := rfl
theorem ldaMem (v : Operand) : Statement (.ldaMem v) := rfl
theorem sta (v : Operand) : Statement (.sta v) := rfl
theorem add (v : Operand) : Statement (.add v) := rfl
theorem sub (v : Operand) : Statement (.sub v) := rfl
theorem jmp (v : Operand) : Statement (.jmp v) := rfl
theorem jz (v : Operand) : Statement (.jz v) := rfl
theorem out (v : Operand) : Statement (.out v) := rfl
theorem hlt (v : Operand) : Statement (.hlt v) := rfl

end WellFormed

end Sys2Proof.Laws
end

