-- ==== Sys2Proof/Tests/Slice0.lean ====
section
/-! SUPPORT. The model's own tests: expected results are those of 95_test_vectors.md (the vector is
named) or of the rule named. Then, for each statement with hypotheses, a witness that meets them. -/

namespace Sys2Proof.Tests

open Sys2Proof Sys2Proof.Machine

/-- A RUNNING core with the bytes at `a` and `PC` there. -/
def coreAt (a : Addr) (bytes : List Byte) (s : State := State.reset) : State :=
  { s.storeBytes a bytes with pc := a }

/-- One step. -/
def one (s : State) : Option State := nextOf (step s)

/-! ## Well-formedness: an ill-formed term for each check -/

theorem test_wf_unknown_mnemonic : SourcePair.mnemonicKnown ⟨"MOV", some 0⟩ = false := by decide
theorem test_wf_mnemonic_case : SourcePair.wf ⟨"lda", some 1⟩ = false := by decide
theorem test_wf_operand_65536 : SourcePair.operandFits ⟨"LDA", some 65536⟩ = false := by decide
theorem test_wf_operand_65535 : SourcePair.wf ⟨"LDA", some 65535⟩ = true := by decide
theorem test_wf_operand_omitted : SourcePair.wf ⟨"HLT", none⟩ = true := by decide
/-- V-E14 and V-E13. -/
theorem test_wf_too_long (q : SourcePair) :
    SourceProgram.fits (List.replicate 21846 q) = false ∧
    SourceProgram.fits (List.replicate 21845 q) = true := by
  rw [SourceProgram.fits, SourceProgram.fits, List.length_replicate, List.length_replicate]
  decide

/-! ## Decoding: one word for each constructor, written out from R51 and R54 as
`operand[15:8] operand[7:0] opcode` -/

theorem test_decode_lda : decodeTableWord 24 0b00000000_00000111_00000001 = some (.lda 7) := by decide
theorem test_decode_ldb : decodeTableWord 24 0b00000001_11111111_00000010 = some (.ldb 0x01FF) := by
  decide
theorem test_decode_ldaMem :
    decodeTableWord 24 0b10000000_00000000_00000011 = some (.ldaMem 0x8000) := by decide
theorem test_decode_sta :
    decodeTableWord 24 0b10000000_00000000_00000100 = some (.sta 0x8000) := by decide
theorem test_decode_add :
    decodeTableWord 24 0b00010010_00110100_00000101 = some (.add 0x1234) := by decide
theorem test_decode_sub :
    decodeTableWord 24 0b11111111_11111111_00000110 = some (.sub 0xFFFF) := by decide
theorem test_decode_jmp :
    decodeTableWord 24 0b11111111_11111110_00000111 = some (.jmp 0xFFFE) := by decide
theorem test_decode_jz : decodeTableWord 24 0b00000000_00010010_00001000 = some (.jz 18) := by decide
theorem test_decode_out :
    decodeTableWord 24 0b11001101_10101011_00001001 = some (.out 0xCDAB) := by decide
theorem test_decode_hlt : decodeTableWord 8 0b11111111 = some (.hlt 0) := by decide
/-- V-F5, V-F6, V-F1. -/
theorem test_decode_illegal : decode [0x0A, 1, 2] = .error (.unknownOpcode 0x0A) ∧
    decode [0xFE] = .error (.unknownOpcode 0xFE) ∧ decode [0] = .error (.unknownOpcode 0) :=
  ⟨rfl, rfl, rfl⟩
theorem test_decode_truncated : decode [] = .error .truncated ∧ decode [0x01, 7] = .error .truncated :=
  ⟨rfl, rfl⟩
/-- V-E3, V-E4, V-E6. -/
theorem test_encode : encode (.jz 18) = [0x08, 0x12, 0x00] ∧ encode (.jmp 0xFFFE) = [0x07, 0xFE, 0xFF] ∧
    encode (.add 0x1234) = [0x05, 0x34, 0x12] := by decide

/-! ## Single steps -/

/-- V-L3. -/
theorem test_lda_drops_high_byte :
    (one (coreAt 0 [0x01, 0x00, 0x01] { State.reset with a := 9 })).map (fun t => (t.a, t.z, t.pc)) =
      some (0, true, 3) := by decide
/-- V-L4. -/
theorem test_lda_ffff :
    (one (coreAt 0 [0x01, 0xFF, 0xFF] { State.reset with z := true })).map
      (fun t => (t.a, t.z, t.pc)) = some (0xFF, false, 3) := by decide
/-- V-L7. -/
theorem test_ldb_zero_sets_z :
    (one (coreAt 3 [0x02, 0, 0] { State.reset with a := 5, b := 9 })).map
      (fun t => (t.a, t.b, t.z, t.pc)) = some (5, 0, true, 6) := by decide
/-- V-L8. -/
theorem test_ldb_one_clears_z :
    (one (coreAt 3 [0x02, 1, 0] { State.reset with z := true })).map
      (fun t => (t.a, t.b, t.z, t.pc)) = some (0, 1, false, 6) := by decide
/-- V-L11. -/
theorem test_ldaMem_own_opcode :
    (one (coreAt 0 [0x03, 0, 0])).map (fun t => (t.a, t.z, t.pc)) = some (0x03, false, 3) := by decide
/-- V-L12. -/
theorem test_ldaMem_top_address :
    (one (coreAt 0 [0x03, 0xFF, 0xFF] (State.reset.store 0xFFFF 0x80))).map
      (fun t => (t.a, t.z, t.pc)) = some (0x80, false, 3) := by decide
/-- V-L14: the store of 0 over a listed cell leaves the cell unlisted, and `Z` alone. -/
theorem test_sta_zero :
    (one (coreAt 3 [0x04, 0x00, 0x80] (State.reset.store 0x8000 7))).map
      (fun t => (t.mem, t.z, t.pc)) = some ([(3, 0x04), (5, 0x80)], false, 6) := by decide
/-- V-L16. -/
theorem test_sta_own_opcode :
    (one (coreAt 3 [0x04, 0x03, 0x00] { State.reset with a := 0xFF })).map
      (fun t => (t.load 3, t.load 4, t.a, t.pc)) = some (0xFF, 3, 0xFF, 6) := by decide
/-- V-A2. -/
theorem test_add_wraps :
    (one (coreAt 0 [0x05, 0, 0] { State.reset with a := 0xFF, b := 1 })).map
      (fun t => (t.a, t.b, t.z)) = some (0, 1, true) := by decide
/-- V-A6. -/
theorem test_add_ignores_operand :
    (one (coreAt 0 [0x05, 0x34, 0x12] { State.reset with a := 1, b := 2 })).map
      (fun t => (t.a, t.z, t.pc)) = some (3, false, 3) := by decide
/-- V-A9. -/
theorem test_sub_does_not_saturate :
    (one (coreAt 0 [0x06, 0, 0] { State.reset with b := 1 })).map (fun t => (t.a, t.z)) =
      some (255, false) := by decide
/-- V-A10. -/
theorem test_sub_order :
    (one (coreAt 0 [0x06, 0, 0] { State.reset with a := 5, b := 7 })).map (fun t => (t.a, t.b)) =
      some (254, 7) := by decide
/-- V-C3. -/
theorem test_jmp_top : (one (coreAt 0 [0x07, 0xFF, 0xFF])).map (fun t => (t.pc, t.z)) =
    some (0xFFFF, false) := by decide
/-- V-C8: `Z` is false at reset. -/
theorem test_jz_first_not_taken : (one (coreAt 0 [0x08, 9, 0])).map (fun t => t.pc) = some 3 := by
  decide
/-- V-C10: the instruction straddles the top of memory. -/
theorem test_jz_straddles_top :
    (one (coreAt 0xFFFE [0x08, 0x34, 0x12] { State.reset with z := true })).map
      (fun t => (t.pc, t.z, t.load 0)) = some (0x1234, true, 0x12) := by decide
/-- V-O2. -/
theorem test_out_zero :
    (one (coreAt 0 [0x09, 0, 0] { State.reset with output := [5] })).map
      (fun t => (t.output, t.z)) = some ([5, 0], false) := by decide
/-- V-O6. -/
theorem test_hlt_at_top :
    (one { ((State.reset.store 0xFFFF 0xFF).store 0 1).store 1 7 with pc := 0xFFFF }).map
      (fun t => (t.life, t.pc, t.a)) = some (.halted, 2, 0) := by decide
/-- V-O7. -/
theorem test_step_of_halted :
    one { coreAt 0 [0x01, 7, 0] with life := .halted } =
      some { coreAt 0 [0x01, 7, 0] with life := .halted } := by decide
/-- V-F4: the fetch advance wraps; the recorded address is the byte's own. -/
theorem test_fault_at_top :
    (one (coreAt 0xFFFF [0x80])).map (fun t => (t.life, t.fault, t.pc)) =
      some (.faulted, some ⟨0x80, 0xFFFF⟩, 0) := by decide
/-- V-F1, R161: from reset with nothing loaded. -/
theorem test_fault_from_reset :
    one State.reset = some { State.reset with pc := 1, life := .faulted, fault := some ⟨0, 0⟩ } := by
  decide

/-! ## Loader, run controller, host -/

/-- V-E10, its image. -/
theorem test_load_image :
    (nextOf (loadProgram [⟨"LDA", some 300⟩] State.reset)).map (fun t => t.mem) =
      some [(0, 0x01), (1, 0x2C), (2, 0x01), (3, 0xFF)] := by decide
/-- V-E11, V-E12. -/
theorem test_load_unknown_mnemonic :
    loadProgram [⟨"MOV", some 0⟩] State.reset = .fault (.unknownMnemonic "MOV") ∧
    loadProgram [⟨"lda", some 1⟩] State.reset = .fault (.unknownMnemonic "lda") := ⟨rfl, rfl⟩
/-- V-E15. -/
theorem test_load_operand_out_of_range :
    loadProgram [⟨"LDA", some 65536⟩] State.reset = .refused (.operandOutOfRange 65536) := rfl
/-- V-E9: the failsafe of the empty program halts on the first step. -/
theorem test_run_empty_program :
    (nextOf (andThen (loadProgram [] State.reset) (run 1))).map
      (fun r => (r.verdict, r.final.steps, r.final.output)) = some (.halted, 1, []) := by decide
/-- V-R5: a fault on the last budgeted step. -/
theorem test_run_fault_on_last_step :
    (nextOf (run 1 (coreAt 0 [0x0A]))).map (fun r => r.verdict) =
      some (.unknownOpcode 0x0A 0) := by decide
/-- V-R4. -/
theorem test_run_budget_zero :
    (nextOf (run 0 State.reset)).map (fun r => (r.verdict, r.final)) =
      some (.stepBudgetExceeded 0, State.reset) := by decide
/-- P5 as the host does it: load, poke, run, observe. -/
theorem test_host_session :
    ((nextOf (Session.acts [.load [⟨"HLT", none⟩], .poke 0 0x0A, .run none] Session.fresh)).bind
      Session.observe).map (fun o => (o.verdict, o.a, o.output, o.steps)) =
      some (.unknownOpcode 0x0A 0, 0, [], 1) := by decide
/-- R162: a second load, a second run and a late poke are refused. -/
theorem test_host_out_of_order :
    (⟨State.reset, .loaded⟩ : Session).act (.load []) = .refused .loadNotAfterReset ∧
    (⟨State.reset, .ended .halted⟩ : Session).act (.run none) = .refused .secondRun ∧
    (⟨State.reset, .ended .halted⟩ : Session).act (.poke 0 1) = .refused .pokeNotBeforeRun :=
  ⟨rfl, rfl, rfl⟩
/-- R24, R45. -/
theorem test_accesses_of_sta :
    (coreAt 3 [0x04, 0x00, 0x80] { State.reset with a := 0x2A }).accesses =
      [.read 3 0x04, .read 4 0x00, .read 5 0x80, .write 0x8000 0x2A] := by decide

/-! ## Witnesses: each shows a state and operands that meet a statement's hypotheses together -/

theorem inv_of_reset_with (a b : Byte) (z : Bool) (pc : Addr) (o : List Byte) :
    State.Inv { State.reset with a := a, b := b, z := z, pc := pc, output := o } :=
  ⟨State.reset_wf, by simp [State.reset], by simp [State.reset]⟩

theorem witness_StepKeepsInvariant : ∃ s t : State, s.Inv ∧ step s = .next t ∧ t.life = .faulted :=
  ⟨State.reset, _, inv_of_reset_with 0 0 false 0 [], rfl, rfl⟩

theorem witness_StepKeepsInvariant_running : ∃ s t : State, s.Inv ∧ step s = .next t ∧
    t.life = .running ∧ t.mem ≠ s.mem := by
  refine ⟨coreAt 0 [0x04, 9, 0] { State.reset with a := 1 }, _, ⟨by decide, by decide, ?_⟩,
    rfl, rfl, by decide⟩
  intro r h; cases h

theorem witness_HostActionsKeepInvariant : ∃ (xs : List HostAction) (c : Session),
    Session.acts xs Session.fresh = .next c ∧ ∀ v, c.phase ≠ .ended v :=
  ⟨[.load [⟨"LDA", some 1⟩], .poke 0x8000 7], _, rfl, by intro v h; cases h⟩

theorem witness_CanonicalMemoriesThatReadAlikeAreEqual : ∃ m m' : Memory, m.wf ∧ m'.wf ∧ m ≠ [] ∧
    ∀ x : Addr, Memory.read m x.toNat = Memory.read m' x.toNat :=
  ⟨[(0, 1), (0xFFFF, 2)], [(0, 1), (0xFFFF, 2)], by decide, by decide, by decide, fun _ => rfl⟩

theorem witness_OpcodeByteAloneDecodes_legal : ∃ (lo hi : Byte) (v : Operand),
    v.toNat = lo.toNat + 256 * hi.toNat ∧ v = 0xFFFF := ⟨0xFF, 0xFF, 0xFFFF, by decide, rfl⟩

theorem witness_OpcodeByteAloneDecodes_illegal :
    ((0x00 : Byte).toNat = 0) ∧ (10 ≤ (0x0A : Byte).toNat ∧ (0x0A : Byte).toNat ≤ 254) ∧
    (10 ≤ (0xFE : Byte).toNat ∧ (0xFE : Byte).toNat ≤ 254) := by decide

theorem witness_DecodeOfEncode : ∃ i : Instr, i.wf = true ∧ i.operand = 0xFFFF :=
  ⟨.sta 0xFFFF, rfl, rfl⟩

theorem witness_EncodingIsABijection_instr : ∃ (m m' : Mnemonic) (v v' : Operand),
    m.instr v = m'.instr v' := ⟨.HLT, .HLT, 0xFFFF, 0xFFFF, rfl⟩

theorem witness_EncodingIsABijection_decode : ∃ (bs : List Byte) (i : Instr) (rest : List Byte),
    decode bs = .ok (i, rest) ∧ rest ≠ [] :=
  ⟨[0xFF, 0x12, 0x34, 0x56], .hlt 0x3412, [0x56], rfl, by decide⟩

theorem witness_StepRunsTheDecodedInstruction : ∃ (s : State) (i : Instr), s.life = .running ∧
    decode [s.load s.pc, s.load (s.pc + 1), s.load (s.pc + 2)] = .ok (i, []) :=
  ⟨coreAt 0xFFFF [0x01, 0x55, 0x07], .lda 0x0755, rfl, rfl⟩

/-- For IllegalOpcodeEndsTheStep and IllegalOpcodeEntersFaulted, at the three ends of the range. -/
theorem witness_IllegalOpcode :
    (State.reset.life = .running ∧ (State.reset.load State.reset.pc).toNat = 0) ∧
    ((coreAt 0 [0x0A]).life = .running ∧ ((coreAt 0 [0x0A]).load 0).toNat = 10) ∧
    ((coreAt 0xFFFF [0xFE]).life = .running ∧ ((coreAt 0xFFFF [0xFE]).load 0xFFFF).toNat = 254) := by
  decide

theorem witness_TerminalStatesNeverChange :
    (∃ s : State, s.life = .halted ∧ s.life ≠ .running) ∧
    (∃ s : State, s.life = .faulted ∧ s.life ≠ .running) :=
  ⟨⟨State.reset.halt, by decide⟩, ⟨State.reset.takeUnknownOpcode 0 0, by decide⟩⟩

/-- For LifecycleAfterAStep and PcAfterAStep: a step into each lifecycle state. -/
theorem witness_LifecycleAfterAStep :
    (∃ s t : State, s.life = .running ∧ step s = .next t ∧ t.life = .halted) ∧
    (∃ s t : State, s.life = .running ∧ step s = .next t ∧ t.life = .faulted) ∧
    (∃ s t : State, s.life = .running ∧ step s = .next t ∧ t.life = .running) :=
  ⟨⟨coreAt 0 [0xFF], _, rfl, rfl, rfl⟩, ⟨State.reset, _, rfl, rfl, rfl⟩,
    ⟨coreAt 0 [0x09], _, rfl, rfl, rfl⟩⟩

/-- For PcAfterAStep: JMP, JZ taken, JZ not taken, and a step whose `PC` wraps. -/
theorem witness_PcAfterAStep :
    (∃ s t : State, s.life = .running ∧ step s = .next t ∧ (s.load s.pc).toNat = 7) ∧
    (∃ s t : State, s.life = .running ∧ step s = .next t ∧ (s.load s.pc).toNat = 8 ∧ s.z = true) ∧
    (∃ s t : State, s.life = .running ∧ step s = .next t ∧ (s.load s.pc).toNat = 8 ∧ s.z = false ∧
      s.pc.toNat = 0xFFFD) :=
  ⟨⟨coreAt 0 [0x07, 0xFF, 0xFF], _, rfl, rfl, rfl⟩,
    ⟨coreAt 0 [0x08, 0xFF, 0xFF] { State.reset with z := true }, _, rfl, rfl, rfl, rfl⟩,
    ⟨coreAt 0xFFFD [0x08], _, rfl, rfl, rfl, rfl, rfl⟩⟩

theorem witness_PlacedInstructionRunsNext : ∃ (s : State) (nbits w : Nat) (i : Instr),
    decodeTableWord nbits w = some i ∧ s.life = .running :=
  ⟨State.reset, 24, 0x800004, .sta 0x8000, by decide, rfl⟩

/-- For the step clauses of the eight instruction statements that name no address. -/
theorem witness_InstructionBytes : ∀ b ∈ [0x01, 0x02, 0x04, 0x05, 0x06, 0x09, (0xFF : Byte)],
    ∃ s : State, s.life = .running ∧ s.bytesAtPc = [b, 0xFF, 0xFF] := by
  intro b hb
  refine ⟨coreAt 0x100 [b, 0xFF, 0xFF], rfl, ?_⟩
  revert b; decide

/-- For the step clauses of LDA_MEM, JMP and JZ. -/
theorem witness_AddressBytes : ∀ b ∈ [0x03, 0x07, (0x08 : Byte)], ∃ (s : State) (x : Addr),
    s.life = .running ∧ s.bytesAtPc = [b, 0xFF, 0xFF] ∧
    x.toNat = (0xFF : Byte).toNat + 256 * (0xFF : Byte).toNat := by
  intro b hb
  refine ⟨coreAt 0x100 [b, 0xFF, 0xFF], 0xFFFF, rfl, ?_, by decide⟩
  revert b; decide

/-- For the four frames, and for the statements about who writes `A`, `B`, `Z`: every mnemonic has an
instruction that answers a next state. -/
theorem witness_Frames : ∀ m : Mnemonic, ∃ (i : Instr) (s t : State),
    i.mnemonic = m ∧ exec i s = .next t := by
  intro m
  obtain ⟨t, ht⟩ := exec_isNext (m.instr 0xFFFF) State.reset
  exact ⟨m.instr 0xFFFF, State.reset, t, Mnemonic.mnemonic_instr m _, ht⟩

theorem witness_RegisterA : ∃ i j k : Instr, i.mnemonic ∉ [Mnemonic.LDA, .LDA_MEM, .ADD, .SUB] ∧
    j.mnemonic ∉ [Mnemonic.STA, .ADD, .SUB, .OUT] ∧ j.mnemonic = .LDA ∧
    k.mnemonic ∉ [Mnemonic.STA, .ADD, .SUB, .OUT] ∧ k.mnemonic = .HLT :=
  ⟨.ldb 0, .lda 0, .hlt 0, by decide⟩

theorem witness_RegisterB : ∃ i j : Instr, i.mnemonic ≠ .LDB ∧
    j.mnemonic ∉ [Mnemonic.ADD, .SUB] ∧ j.mnemonic = .LDB := ⟨.add 0, .ldb 0, by decide⟩

theorem witness_ZeroFlagRule : ∃ i j : Instr, i.mnemonic ≠ .JZ ∧ i.mnemonic = .STA ∧
    j.mnemonic ≠ .JZ ∧ j.mnemonic = .LDB := ⟨.sta 0, .ldb 0, by decide⟩

theorem witness_NoInstructionReadsPc : ∃ i : Instr, i.mnemonic ∉ [Mnemonic.JMP, .JZ] :=
  ⟨.hlt 0, by decide⟩

theorem witness_OnlyStaChangesMemory : ∃ (s t : State) (x : Addr), step s = .next t ∧
    t.load x ≠ s.load x :=
  ⟨coreAt 0 [0x04, 0xFF, 0xFF] { State.reset with a := 1 }, _, 0xFFFF, rfl, by decide⟩

theorem witness_CellKeepsItsValueUntilStored : ∃ (k : Nat) (s : State) (x : Addr), 0 < k ∧
    s.load x ≠ 0 ∧ ∀ j < k, (s.afterSteps j).nextInstr ≠ some (.sta x) :=
  ⟨1, coreAt 0 [0x04, 0xFF, 0xFF], 0, by decide⟩

/-- A legal byte and an illegal one stored where the next instruction begins. -/
theorem witness_StoredByteIsTheNextOpcode :
    (∃ (s t : State) (v : Operand) (m : Mnemonic), s.nextInstr = some (.sta v) ∧
      step s = .next t ∧ v = s.pc + 3 ∧ Mnemonic.ofOpcode s.a = some m) ∧
    (∃ (s t : State) (v : Operand), s.nextInstr = some (.sta v) ∧ step s = .next t ∧
      v = s.pc + 3 ∧ Mnemonic.ofOpcode s.a = none) :=
  ⟨⟨coreAt 6 [0x04, 9, 0] { State.reset with a := 9 }, _, 9, .OUT, by decide, rfl, by decide,
      by decide⟩,
    ⟨coreAt 6 [0x04, 9, 0] { State.reset with a := 0xFE }, _, 9, by decide, rfl, by decide,
      by decide⟩⟩

theorem witness_OutputRecordsThePresentedValues : ∃ (s : State) (r : Byte), s.presents = some r :=
  ⟨coreAt 0 [0x09] { State.reset with a := 12 }, 12, by decide⟩

theorem witness_RunEnds : ∃ s : State, s.Inv := ⟨State.reset, inv_of_reset_with 0 0 false 0 []⟩

/-- A run with each of the three verdicts. -/
theorem witness_VerdictReportsTheFinalState :
    (∃ (n : Nat) (s : State) (r : RunResult), run n s = .next r ∧ r.verdict = .halted) ∧
    (∃ (n : Nat) (s : State) (r : RunResult), run n s = .next r ∧
      r.verdict = .unknownOpcode 0 0) ∧
    (∃ (n : Nat) (s : State) (r : RunResult), run n s = .next r ∧
      r.verdict = .stepBudgetExceeded n) :=
  ⟨⟨1, coreAt 0 [0xFF], _, rfl, rfl⟩, ⟨1, State.reset, _, rfl, rfl⟩, ⟨0, State.reset, _, rfl, rfl⟩⟩

theorem witness_SelfJumpExceedsEveryBudget : ∃ (s : State) (lo hi : Byte), s.life = .running ∧
    s.bytesAtPc = [0x07, lo, hi] ∧ s.pc.toNat = lo.toNat + 256 * hi.toNat :=
  ⟨coreAt 0x1234 [0x07, 0x34, 0x12], 0x34, 0x12, by decide⟩

theorem witness_LargerBudgetGivesTheSameEnd : ∃ (n m : Nat) (s : State) (r : RunResult), n < m ∧
    run n s = .next r ∧ r.final.life ≠ .running :=
  ⟨1, 2, coreAt 0 [0xFF], _, by decide, rfl, by decide⟩

theorem assemble_replicate_hlt (n : Nat) :
    assembleProgram (List.replicate n ⟨"HLT", none⟩) = .next (List.replicate n (.hlt 0)) := by
  induction n with
  | zero => rfl
  | succ n ih =>
    rw [List.replicate_succ, assembleProgram, ih]; rfl

/-- A load for each clause: a failure, the two refusals (V-E14 the second), and a program wrong in its
mnemonics only. -/
theorem witness_LoaderNamesWhatIsWrong :
    (∃ p s f, loadProgram p s = .fault f ∧ (∃ q ∈ p, q.mnemonicKnown = false) ∧
      ∀ q ∈ p, q.operandFits = true) ∧
    (∃ p s, loadProgram p s = .refused (.operandOutOfRange 65536)) ∧
    (∃ p s, loadProgram p s = .refused (.programTooLong 21846)) := by
  refine ⟨⟨[⟨"MOV", some 0⟩], State.reset, _, rfl, by decide, by decide⟩,
    ⟨[⟨"LDA", some 65536⟩], State.reset, rfl⟩,
    ⟨List.replicate 21846 ⟨"HLT", none⟩, State.reset, ?_⟩⟩
  rw [loadProgram, assemble_replicate_hlt, andThen_next, List.length_replicate]
  rfl

/-- For LoadedImage and LoadedProgramIsWhatTheCoreDecodes, with an instruction and a free cell above. -/
theorem witness_LoadedImage : ∃ (p : SourceProgram) (is : List Instr) (t : State),
    loadProgram p State.reset = .next t ∧ assembleProgram p = .next is ∧
    p[0]? = some ⟨"STA", some 65535⟩ ∧ is[0]? = some (.sta 0xFFFF) ∧
    3 * p.length < (0xFFFF : Addr).toNat :=
  ⟨[⟨"STA", some 65535⟩], _, _, rfl, rfl, rfl, rfl, by decide⟩

theorem witness_FullLifeOfAnInstanceGoesThrough : ∃ p : SourceProgram, p ≠ [] ∧
    SourceProgram.wf p = true := ⟨[⟨"LDA_MEM", some 65535⟩], by decide, by decide⟩

theorem witness_InstancesDoNotInteract : ∃ (f : Fleet) (k : Nat) (s : State), f[k]? = some s ∧
    1 < f.length := ⟨[State.reset, coreAt 0 [0xFF]], 1, coreAt 0 [0xFF], rfl, by decide⟩

theorem witness_MemoryPortAccessOrder :
    (∃ s : State, s.life ≠ .running) ∧
    (∃ s : State, s.life = .running ∧ Mnemonic.ofOpcode (s.load s.pc) = none) ∧
    (∃ s v, State.nextInstr s = some (.ldaMem v)) ∧ (∃ s v, State.nextInstr s = some (.sta v)) ∧
    (∃ s v, State.nextInstr s = some (.hlt v)) :=
  ⟨⟨State.reset.halt, by decide⟩, ⟨State.reset, by decide⟩,
    ⟨coreAt 0 [0x03, 0xFF, 0xFF], 0xFFFF, by decide⟩,
    ⟨coreAt 0 [0x04, 0xFF, 0xFF], 0xFFFF, by decide⟩, ⟨coreAt 0 [0xFF], 0, by decide⟩⟩

/-- Memories that differ, agreeing on the bytes an LDA_MEM reads. -/
theorem witness_StepDependsOnlyOnTheBytesItReads : ∃ (s : State) (m : Memory), m ≠ s.mem ∧
    s.life = .running ∧
    ∀ x r, Access.read x r ∈ s.accesses → State.load { s with mem := m } x = r := by
  refine ⟨coreAt 0 [0x03, 0x00, 0x80], [(0, 0x03), (2, 0x80), (0x9000, 1)], by decide, rfl, ?_⟩
  intro x r h
  have e : (coreAt 0 [0x03, 0x00, 0x80]).accesses =
    [.read 0 0x03, .read 1 0, .read 2 0x80, .read 0x8000 0] := by decide
  rw [e] at h
  simp only [List.mem_cons, List.not_mem_nil, or_false, Access.read.injEq] at h
  rcases h with ⟨rfl, rfl⟩ | ⟨rfl, rfl⟩ | ⟨rfl, rfl⟩ | ⟨rfl, rfl⟩ <;> decide

end Sys2Proof.Tests
end

section
/-! SUPPORT. The execute action, one lemma for each piece of state: which instructions write it, and
that another value of it before matters to its readers only (R10 to R18). -/

namespace Sys2Proof.Machine

/-- JZ as one jump (R106): a jump to where `PC` already stands is no jump, so a proof about JZ needs
no split on `Z`. -/
theorem exec_jz_eq_jump (v : Operand) (s : State) :
    exec (.jz v) s = .next (s.jump (if s.z then v else s.pc)) := by
  rw [exec_jz]; split_ifs <;> rfl

/-! What an instruction leaves unchanged -/

section
variable {i : Instr} {s t : State}

theorem exec_keeps_a (h : exec i s = .next t)
    (hi : i.mnemonic ∉ [Mnemonic.LDA, .LDA_MEM, .ADD, .SUB]) : t.a = s.a := by
  cases i
  case lda | ldaMem | add | sub => simp [Instr.mnemonic] at hi
  case jz v => rw [exec_jz_eq_jump] at h; cases h; rfl
  all_goals cases h; rfl

theorem exec_keeps_b (h : exec i s = .next t) (hi : i.mnemonic ≠ .LDB) : t.b = s.b := by
  cases i
  case ldb => simp [Instr.mnemonic] at hi
  case jz v => rw [exec_jz_eq_jump] at h; cases h; rfl
  all_goals cases h; rfl

/-- `PC` after the execute action: JMP and a taken JZ set it, all others leave it (R12). -/
theorem exec_pc (h : exec i s = .next t) :
    t.pc = if i.mnemonic = .JMP ∨ (i.mnemonic = .JZ ∧ s.z = true) then i.operand else s.pc := by
  cases i
  case jz v => rw [exec_jz_eq_jump] at h; cases h; simp [Instr.mnemonic, Instr.operand]
  all_goals cases h; simp [Instr.mnemonic, Instr.operand, effectiveAddress]

theorem exec_keeps_pc (h : exec i s = .next t) (hi : i.mnemonic ∉ [Mnemonic.JMP, .JZ]) :
    t.pc = s.pc := by
  rw [exec_pc h, if_neg]
  rintro (hj | ⟨hj, -⟩) <;> simp [hj] at hi

/-- `Z` after the execute action: of the value just written, or as it was (R13). -/
theorem exec_z (h : exec i s = .next t) :
    t.z = (if i.mnemonic ∈ [Mnemonic.LDA, .LDA_MEM, .ADD, .SUB] then decide (t.a.toNat = 0)
      else if i.mnemonic = .LDB then decide (t.b.toNat = 0) else s.z) := by
  cases i
  case lda | ldb | ldaMem | add | sub => cases h; exact zeroFlag_eq _
  case jz v => rw [exec_jz_eq_jump] at h; cases h; rfl
  all_goals cases h; rfl

/-- Output after the execute action: OUT appends `A`, all others leave it (R18). -/
theorem exec_output (h : exec i s = .next t) :
    t.output = s.output ++ if i.mnemonic = .OUT then [s.a] else [] := by
  cases i
  case out => cases h; rfl
  case jz v => rw [exec_jz_eq_jump] at h; cases h; simp [Instr.mnemonic]
  all_goals cases h; simp [Instr.mnemonic]

theorem exec_keeps_load (h : exec i s = .next t) (hi : i.mnemonic ≠ .STA) (x : Addr) :
    t.load x = s.load x := by
  rw [exec_load h, if_neg]
  rintro rfl; exact hi rfl

end

/-! What an instruction does not read -/

section
variable (i : Instr) (s : State)

theorem exec_withA (a : Byte) (hi : i.mnemonic ∉ [Mnemonic.STA, .ADD, .SUB, .OUT]) :
    ∃ t, exec i s = .next t ∧ exec i { s with a := a } =
      .next { t with a := if i.mnemonic ∈ [Mnemonic.LDA, .LDA_MEM] then t.a else a } := by
  cases i
  case sta | add | sub | out => simp [Instr.mnemonic] at hi
  case jz v => exact ⟨_, exec_jz_eq_jump v s, exec_jz_eq_jump v _⟩
  all_goals exact ⟨_, rfl, rfl⟩

theorem exec_withB (b : Byte) (hi : i.mnemonic ∉ [Mnemonic.ADD, .SUB]) :
    ∃ t, exec i s = .next t ∧
      exec i { s with b := b } = .next { t with b := if i.mnemonic = .LDB then t.b else b } := by
  cases i
  case add | sub => simp [Instr.mnemonic] at hi
  case jz v => exact ⟨_, exec_jz_eq_jump v s, exec_jz_eq_jump v _⟩
  all_goals exact ⟨_, rfl, rfl⟩

theorem exec_withZ (z : Bool) (hi : i.mnemonic ≠ .JZ) :
    ∃ t, exec i s = .next t ∧ exec i { s with z := z } = .next { t with
      z := if i.mnemonic ∈ [Mnemonic.LDA, .LDB, .LDA_MEM, .ADD, .SUB] then t.z else z } := by
  cases i
  case jz => simp [Instr.mnemonic] at hi
  all_goals exact ⟨_, rfl, rfl⟩

theorem exec_withPc (p : Addr) : ∃ t, exec i s = .next t ∧
    exec i { s with pc := p } = .next { t with
      pc := if i.mnemonic = .JMP ∨ (i.mnemonic = .JZ ∧ s.z = true) then i.operand else p } := by
  cases i
  case jz v =>
    refine ⟨_, exec_jz_eq_jump v s, (exec_jz_eq_jump v _).trans ?_⟩
    simp [State.jump, Instr.mnemonic, Instr.operand]
  all_goals exact ⟨_, rfl, rfl⟩

/-- The lifecycle state, the fault record, Output and the step count are read by no instruction, and
the values an instruction appends to Output do not depend on them. -/
theorem exec_withStatus (l : Lifecycle) (f : Option FaultRecord) (o : List Byte) (n : Nat) :
    ∃ t added, exec i s = .next t ∧ t.output = s.output ++ added ∧
      exec i { s with life := l, fault := f, output := o, steps := n } = .next { t with
        life := if i.mnemonic = .HLT then .halted else l
        fault := f, output := o ++ added, steps := n } := by
  cases i
  case out => exact ⟨_, [s.a], rfl, rfl, rfl⟩
  case jz v =>
    refine ⟨_, [], exec_jz_eq_jump v s, (List.append_nil _).symm, ?_⟩
    rw [List.append_nil]; exact exec_jz_eq_jump v _
  all_goals
    refine ⟨_, [], rfl, (List.append_nil _).symm, ?_⟩
    rw [List.append_nil]; rfl

/-- An instruction reads at most one byte of memory, LDA_MEM's, and what it does to the rest of the
state depends on no other byte (R24). -/
theorem exec_withMem (m : Memory)
    (hm : i.mnemonic = .LDA_MEM → State.load { s with mem := m } i.operand = s.load i.operand) :
    ∃ t t', exec i s = .next t ∧ exec i { s with mem := m } = .next t' ∧
      { t' with mem := t.mem } = t := by
  cases i
  case ldaMem v =>
    refine ⟨_, _, exec_ldaMem v s, exec_ldaMem v _, ?_⟩
    rw [show State.load { s with mem := m } v = s.load v from hm rfl]; rfl
  case jz v => exact ⟨_, _, exec_jz_eq_jump v s, exec_jz_eq_jump v _, rfl⟩
  all_goals exact ⟨_, _, rfl, rfl, rfl⟩

end

end Sys2Proof.Machine
end

section
/-! SUPPORT. The invariant: how a state without a fault record gets it, and that steps, runs, stores
and loads keep it (R16, R130). -/

namespace Sys2Proof.Machine

namespace State.Inv

variable {s : State}

theorem fault_eq_none (h : s.Inv) (hs : s.life = .running) : s.fault = none := by
  rw [← Option.not_isSome_iff_eq_none, h.record, hs]; decide

/-- Without a fault record the invariant is canonical memory and a state other than FAULTED. -/
theorem of_fault_eq_none (hmem : Memory.wf s.mem) (hfault : s.fault = none)
    (hlife : s.life ≠ .faulted) : s.Inv where
  memory := hmem
  record := by simp [hfault, hlife]
  recorded := by simp [hfault]

/-- Memory of a RUNNING core may be written from outside (R165, R172). -/
theorem withMem (h : s.Inv) (hs : s.life = .running) {m : Memory} (hm : Memory.wf m) :
    State.Inv { s with mem := m } :=
  of_fault_eq_none hm (h.fault_eq_none hs) (by simp [hs])

theorem withSteps (h : s.Inv) (n : Nat) : State.Inv { s with steps := n } :=
  ⟨h.memory, h.record, h.recorded⟩

end State.Inv

/-- A step keeps the invariant: the decode fault latches the byte and address it has just read; an
instruction starts without a record, makes none, and does not enter FAULTED. -/
theorem step_keeps_inv {s t : State} (h : s.Inv) (ht : step s = .next t) : t.Inv := by
  rcases step_cases ht with ⟨-, rfl⟩ | ⟨-, hb, rfl⟩ | ⟨hs, m, -, he⟩
  · exact h
  · refine ⟨h.memory, by simp, fun r hr => ?_⟩
    cases hr
    exact ⟨hb, rfl, rfl⟩
  · obtain ⟨hfault, -, hlife⟩ := exec_keeps he
    refine .of_fault_eq_none (exec_wf he h.memory) (hfault.trans (h.fault_eq_none hs)) ?_
    rw [hlife]; split_ifs <;> simp [hs]

theorem State.Inv.afterSteps {s : State} (h : s.Inv) (k : Nat) : (s.afterSteps k).Inv := by
  induction k generalizing s with
  | zero => exact h
  | succ k ih =>
    obtain ⟨t, ht⟩ := step_isNext s
    rw [State.afterSteps_succ ht]; exact ih (step_keeps_inv h ht)

/-- A run keeps the invariant: it ends after some steps, with the step count set. -/
theorem run_keeps_inv {n : Nat} {s : State} {r : RunResult} (h : s.Inv) (hr : run n s = .next r) :
    r.final.Inv := by
  obtain ⟨v, t⟩ := r
  obtain ⟨hloop, -⟩ := run_cases hr
  obtain ⟨k, hk, -⟩ := runLoop_eq n { s with steps := 0 }
  rw [hk] at hloop; cases hloop
  exact ((h.withSteps 0).afterSteps k).withSteps _

/-- A load into a RUNNING core changes memory only, and keeps it canonical (R165, R170). -/
theorem loadProgram_keeps_inv {p : SourceProgram} {s t : State} (h : s.Inv)
    (hs : s.life = .running) (ht : loadProgram p s = .next t) : t.Inv ∧ t.life = .running := by
  obtain ⟨is, -, -, -, rfl⟩ := loadProgram_next ht
  rw [State.storeBytes_eq]
  exact ⟨h.withMem hs (State.storeBytes_wf h.memory 0 _), hs⟩

theorem reset_inv : State.reset.Inv :=
  .of_fault_eq_none State.reset_wf rfl (by decide)

end Sys2Proof.Machine
end

section
/-! SUPPORT. The host's actions, one equivalence for each (R27, R162), and what they keep. -/

namespace Sys2Proof.Machine

theorem andThen_eq_next_iff {σ τ : Type} {o : Host.Outcome σ Fault Refusal}
    {f : σ → Host.Outcome τ Fault Refusal} {t : τ} :
    andThen o f = .next t ↔ ∃ s, o = .next s ∧ f s = .next t := by
  refine ⟨andThen_eq_next, ?_⟩
  rintro ⟨s, rfl, h⟩; exact h

namespace Session

variable {c c' : Session}

theorem act_load_eq_next_iff {p : SourceProgram} : c.act (.load p) = .next c' ↔
    c.phase = .fresh ∧ loadProgram p c.machine = .next c'.machine ∧ c'.phase = .loaded := by
  obtain ⟨s, phase⟩ := c
  obtain ⟨s', phase'⟩ := c'
  cases phase with
  | fresh =>
    simp only [act, load, andThen_eq_next_iff, true_and]
    constructor
    · rintro ⟨t, ht, h⟩; cases h; exact ⟨ht, rfl⟩
    · rintro ⟨ht, rfl⟩; exact ⟨s', ht, rfl⟩
  | loaded => simp [act, load]
  | ended v => simp [act, load]

theorem act_poke_eq_next_iff {x : Addr} {v : Byte} : c.act (.poke x v) = .next c' ↔
    c.phase = .loaded ∧ c' = ⟨c.machine.store x v, .loaded⟩ := by
  obtain ⟨s, phase⟩ := c
  cases phase with
  | fresh => simp [act, poke]
  | loaded => simp [act, poke, eq_comm]
  | ended v => simp [act, poke]

theorem act_run_eq_next_iff {n : Option Nat} : c.act (.run n) = .next c' ↔
    (∀ v, c.phase ≠ .ended v) ∧ ∃ v, c'.phase = .ended v ∧
      Machine.run (n.getD Config.defaultMaxSteps) c.machine = .next ⟨v, c'.machine⟩ := by
  have hgo : andThen (Machine.run (n.getD Config.defaultMaxSteps) c.machine)
      (fun r => .next (⟨r.final, .ended r.verdict⟩ : Session)) = .next c' ↔
      ∃ v, c'.phase = .ended v ∧
        Machine.run (n.getD Config.defaultMaxSteps) c.machine = .next ⟨v, c'.machine⟩ := by
    rw [andThen_eq_next_iff]
    constructor
    · rintro ⟨r, hr, h⟩; cases h; exact ⟨r.verdict, rfl, hr⟩
    · rintro ⟨v, hv, hr⟩; exact ⟨_, hr, by rw [← hv]⟩
  obtain ⟨s, phase⟩ := c
  cases phase with
  | fresh => simpa [act, run] using hgo
  | loaded => simpa [act, run] using hgo
  | ended v => simp [act, run]

theorem observe_isSome_iff : c.observe.isSome = true ↔ ∃ v, c.phase = .ended v := by
  obtain ⟨s, phase⟩ := c
  cases phase <;> simp [observe]

/-- What the host's actions keep: the machine's invariant, and RUNNING until a run has ended. -/
structure Good (c : Session) : Prop where
  inv     : c.machine.Inv
  running : (∀ v, c.phase ≠ .ended v) → c.machine.life = .running

theorem good_fresh : fresh.Good := ⟨reset_inv, fun _ => rfl⟩

theorem act_keeps_good {x : HostAction} (h : c.Good) (hx : c.act x = .next c') : c'.Good := by
  cases x with
  | reset => cases hx; exact good_fresh
  | load p =>
    obtain ⟨hphase, hload, -⟩ := act_load_eq_next_iff.mp hx
    obtain ⟨hinv, hlife⟩ := loadProgram_keeps_inv h.inv (h.running (by simp [hphase])) hload
    exact ⟨hinv, fun _ => hlife⟩
  | poke y v =>
    obtain ⟨hphase, rfl⟩ := act_poke_eq_next_iff.mp hx
    have hlife := h.running (by simp [hphase])
    exact ⟨h.inv.withMem hlife (State.store_wf h.inv.memory y v), fun _ => hlife⟩
  | run n =>
    obtain ⟨-, v, hphase, hrun⟩ := act_run_eq_next_iff.mp hx
    exact ⟨run_keeps_inv h.inv hrun, fun hne => absurd hphase (hne v)⟩

theorem acts_keep_good {xs : List HostAction} (h : c.Good) (hxs : acts xs c = .next c') :
    c'.Good := by
  induction xs generalizing c with
  | nil => cases hxs; exact h
  | cons x xs ih =>
    obtain ⟨d, hx, hd⟩ := andThen_eq_next hxs
    exact ih (act_keeps_good h hx) hd

end Session

end Sys2Proof.Machine
end

section
/-! SUPPORT. What the bytes at `PC` decide about a step: the numbers of the opcodes (R54), the
lifecycle state and `PC` after it (R15, R12). -/

namespace Sys2Proof

namespace Mnemonic

theorem toNat_of_ofOpcode {b : Byte} {m : Mnemonic} (h : ofOpcode b = some m) :
    b.toNat = m.opcode.toNat := by
  rw [opcode_of_ofOpcode h]

/-- Every opcode but HLT's is one of 1..9 (R54). -/
theorem toNat_opcode_le_nine {m : Mnemonic} (h : m ≠ .HLT) :
    1 ≤ m.opcode.toNat ∧ m.opcode.toNat ≤ 9 := by
  revert h; cases m <;> decide

theorem toNat_opcode_eq_seven (m : Mnemonic) : m.opcode.toNat = 7 ↔ m = .JMP := by
  cases m <;> decide

theorem toNat_opcode_eq_eight (m : Mnemonic) : m.opcode.toNat = 8 ↔ m = .JZ := by
  cases m <;> decide

end Mnemonic

namespace Machine

variable {s t : State} {m : Mnemonic}

/-- The lifecycle state after a legal instruction: HLT alone changes it (R15, R116). -/
theorem step_life_legal (hs : s.life = .running) (hb : Mnemonic.ofOpcode (s.load s.pc) = some m)
    (ht : step s = .next t) : t.life = if m = .HLT then .halted else .running := by
  rw [step_legal hs hb] at ht
  obtain ⟨-, -, hlife⟩ := exec_keeps ht
  rw [hlife, Mnemonic.mnemonic_instr, State.advance_life, hs]

/-- `PC` after a legal instruction (R12, R72, R107). -/
theorem step_pc_legal (hs : s.life = .running) (hb : Mnemonic.ofOpcode (s.load s.pc) = some m)
    (ht : step s = .next t) : t.pc = if m = .JMP ∨ (m = .JZ ∧ s.z = true)
      then assembleOperand (s.load (s.pc + 1)) (s.load (s.pc + 2)) else s.pc + 3 := by
  rw [step_legal hs hb] at ht
  rw [exec_pc ht, Mnemonic.mnemonic_instr, Mnemonic.operand_instr, State.advance_z,
    State.advance_pc]

end Machine

end Sys2Proof
end

section
/-! SUPPORT. Any number of steps: the values produced and presented, and the flag and Output they
leave (R13, R25). -/

namespace Sys2Proof.Machine

namespace State

variable {s t : State}

theorem producedIn_succ (h : step s = .next t) (k : Nat) :
    producedIn (k + 1) s = s.produces.toList ++ producedIn k t := by
  rw [producedIn, afterSteps_succ h, afterSteps_zero]

theorem presentedIn_succ (h : step s = .next t) (k : Nat) :
    presentedIn (k + 1) s = s.presents.toList ++ presentedIn k t := by
  rw [presentedIn, afterSteps_succ h, afterSteps_zero]

/-- A value is presented by OUT alone, and it is `A` (R25, R115). -/
theorem presents_eq_some_iff (r : Byte) :
    s.presents = some r ↔ (∃ v, s.nextInstr = some (.out v)) ∧ r = s.a := by
  unfold presents
  cases s.nextInstr with
  | none => simp
  | some i => cases i <;> simp [eq_comm]

/-- `Z` after `k` steps is of the last value produced in them (R19 (d)): the last of the later steps
where they produce one, else the first step's own. -/
theorem afterSteps_z (k : Nat) (s : State) :
    (s.afterSteps k).z = ((s.producedIn k).getLast?.map zeroFlag).getD s.z := by
  induction k generalizing s with
  | zero => rfl
  | succ k ih =>
    obtain ⟨t, ht⟩ := step_isNext s
    rw [afterSteps_succ ht, ih, step_z ht, producedIn_succ ht, List.getLast?_append]
    cases (t.producedIn k).getLast? with
    | some r => rfl
    | none => cases s.produces <;> rfl

theorem afterSteps_output (k : Nat) (s : State) :
    (s.afterSteps k).output = s.output ++ s.presentedIn k := by
  induction k generalizing s with
  | zero => exact (List.append_nil _).symm
  | succ k ih =>
    obtain ⟨t, ht⟩ := step_isNext s
    rw [afterSteps_succ ht, ih, step_output ht, presentedIn_succ ht, List.append_assoc]

end State

/-- Any number of steps through the host's interface leaves a terminal state as it is (R76, D7). -/
theorem run_core_terminal {s : State} (h : s.life ≠ .running) (k : Nat) :
    Host.Core.run core k s = .next s := by
  induction k with
  | zero => rfl
  | succ k ih =>
    have hstep : core.step s = .next s := step_terminal h
    simp only [Host.Core.run, hstep, ih]

end Sys2Proof.Machine
end

section
/-! SUPPORT. The accesses on the memory port, case by case, and that no byte but those read matters
(R24, R45). -/

namespace Sys2Proof.Machine.State

variable {s : State}

theorem accesses_terminal (h : s.life ≠ .running) : s.accesses = [] := by
  unfold accesses; split <;> simp_all

theorem accesses_illegal (hs : s.life = .running)
    (hb : Mnemonic.ofOpcode (s.load s.pc) = none) :
    s.accesses = [.read s.pc (s.load s.pc)] := by
  simp only [accesses, hs, nextInstr_illegal hb]

theorem accesses_nextInstr {i : Instr} (h : s.nextInstr = some i) :
    s.accesses = [.read s.pc (s.load s.pc), .read (s.pc + 1) (s.load (s.pc + 1)),
      .read (s.pc + 2) (s.load (s.pc + 2))] ++ s.dataAccess i := by
  obtain ⟨hs, -⟩ := nextInstr_cases h
  simp only [accesses, hs, h]; rfl

theorem dataAccess_eq (s : State) (i : Instr) : s.dataAccess i =
    if i.mnemonic = .LDA_MEM then [.read i.operand (s.load i.operand)]
      else if i.mnemonic = .STA then [.write i.operand s.a] else [] := by
  cases i <;> rfl

/-- With another memory that agrees on the three bytes at `PC`, the same instruction is next. -/
theorem nextInstr_withMem {i : Instr} {m : Memory} (h : s.nextInstr = some i)
    (h0 : State.load { s with mem := m } s.pc = s.load s.pc)
    (h1 : State.load { s with mem := m } (s.pc + 1) = s.load (s.pc + 1))
    (h2 : State.load { s with mem := m } (s.pc + 2) = s.load (s.pc + 2)) :
    State.nextInstr { s with mem := m } = some i := by
  obtain ⟨hs, n, hn, rfl⟩ := nextInstr_cases h
  rw [← h0] at hn
  rw [nextInstr_legal (s := { s with mem := m }) hs hn, h1, h2]

/-- With memory `m` in place of its own, the state makes the same accesses and its step differs in
memory only (R24). -/
def StepsAlike (s : State) (m : Memory) : Prop :=
  State.accesses { s with mem := m } = s.accesses ∧
  ∃ t t', step s = .next t ∧ step { s with mem := m } = .next t' ∧ { t' with mem := t.mem } = t

theorem stepsAlike_terminal (h : s.life ≠ .running) (m : Memory) : s.StepsAlike m :=
  ⟨(accesses_terminal (s := { s with mem := m }) h).trans (accesses_terminal h).symm,
    s, _, step_terminal h, step_terminal (s := { s with mem := m }) h, rfl⟩

theorem stepsAlike_illegal {m : Memory} (hs : s.life = .running)
    (hb : Mnemonic.ofOpcode (s.load s.pc) = none)
    (hreads : ∀ x r, Access.read x r ∈ s.accesses → State.load { s with mem := m } x = r) :
    s.StepsAlike m := by
  have h0 := hreads s.pc (s.load s.pc) (by simp [accesses_illegal hs hb])
  have hb' := h0.symm ▸ hb
  refine ⟨?_, _, _, step_illegal hs hb, step_illegal (s := { s with mem := m }) hs hb', ?_⟩
  · rw [accesses_illegal hs hb, accesses_illegal (s := { s with mem := m }) hs hb', h0]
  · rw [h0]; rfl

/-- The three bytes at `PC` give both the same instruction; LDA_MEM's byte is among those read. -/
theorem stepsAlike_nextInstr {i : Instr} {m : Memory} (hi : s.nextInstr = some i)
    (hreads : ∀ x r, Access.read x r ∈ s.accesses → State.load { s with mem := m } x = r) :
    s.StepsAlike m := by
  rw [accesses_nextInstr hi, dataAccess_eq] at hreads
  have h0 := hreads s.pc (s.load s.pc) (by simp)
  have h1 := hreads (s.pc + 1) (s.load (s.pc + 1)) (by simp)
  have h2 := hreads (s.pc + 2) (s.load (s.pc + 2)) (by simp)
  have hdata : i.mnemonic = .LDA_MEM →
      State.load { s with mem := m } i.operand = s.load i.operand :=
    fun hm => hreads i.operand (s.load i.operand) (by simp [hm])
  have hi' := nextInstr_withMem hi h0 h1 h2
  constructor
  · rw [accesses_nextInstr hi', accesses_nextInstr hi, h0, h1, h2, dataAccess_eq, dataAccess_eq]
    split_ifs with hm
    · rw [hdata hm]
    all_goals rfl
  · rw [step_nextInstr hi, step_nextInstr hi']
    exact exec_withMem i (s.advance 3) m hdata

end Sys2Proof.Machine.State
end

section
/-! SUPPORT. Canonical memory: its entries are exactly what it reads as (R17). -/

namespace Sys2Proof.Machine.Memory

/-- An address read as a byte that is not the unlisted one has an entry. -/
theorem mem_of_read {m : Memory} {x : Nat} (h : read m x ≠ unlisted) : (x, read m x) ∈ m := by
  induction m with
  | nil => exact absurd rfl h
  | cons c rest ih =>
    obtain ⟨k, w⟩ := c
    by_cases hk : k = x
    · subst hk; simp [read]
    · rw [read, if_neg hk] at h ⊢
      exact List.mem_cons_of_mem _ (ih h)

/-- With rising addresses an entry is the one its address reads as. -/
theorem read_of_mem {m : Memory} {c : Host.Cell} (hm : m.Pairwise (fun c d => c.1 < d.1))
    (hc : c ∈ m) : read m c.1 = c.2 := by
  induction m with
  | nil => simp at hc
  | cons d rest ih =>
    rw [List.pairwise_cons] at hm
    obtain ⟨hd, hrest⟩ := hm
    rcases List.mem_cons.mp hc with rfl | hc
    · exact if_pos rfl
    · exact (if_neg (hd c hc).ne).trans (ih hrest hc)

/-- The entries of a canonical memory, in terms of what it reads as. -/
theorem mem_iff_read {m : Memory} (hm : m.wf) (c : Host.Cell) :
    c ∈ m ↔ c.1 < Config.memSize ∧ c.2 ≠ unlisted ∧ read m c.1 = c.2 := by
  obtain ⟨hrising, hcells⟩ := hm
  constructor
  · intro hc
    obtain ⟨hlt, hne⟩ := hcells c hc
    exact ⟨hlt, hne, read_of_mem hrising hc⟩
  · rintro ⟨-, hne, hread⟩
    rw [← hread] at hne
    simpa [hread] using mem_of_read hne

/-- Two canonical memories that read alike below 65536 have the same entries in the same order. -/
theorem eq_of_read_eq {m m' : Memory} (hm : m.wf) (hm' : m'.wf)
    (h : ∀ x < Config.memSize, read m x = read m' x) : m = m' := by
  have hirrefl : Std.Irrefl (fun c d : Host.Cell => c.1 < d.1) := ⟨fun c => lt_irrefl c.1⟩
  have hmem : ∀ c, c ∈ m ↔ c ∈ m' := fun c => by
    rw [mem_iff_read hm, mem_iff_read hm']
    exact and_congr_right fun hlt => by rw [h c.1 hlt]
  exact List.Pairwise.eq_of_mem_iff hm.1 hm'.1 hmem

end Sys2Proof.Machine.Memory
end

section
/-! Settled: the frames of the ten instructions and who reads and writes a piece of state. -/

namespace Sys2Proof.Machine

/-- Settles O29, by the frame lemmas of the five mnemonics. -/
theorem frameOfDataProducingForms : Obligations.FrameOfDataProducingForms := by
  intro i s t h hi
  have hne : ∀ m, m ∉ [Mnemonic.LDA, .LDB, .LDA_MEM, .ADD, .SUB] → i.mnemonic ≠ m :=
    fun m hm he => hm (he ▸ hi)
  obtain ⟨hfault, hsteps, hlife⟩ := exec_keeps h
  refine ⟨exec_keeps_b h, fun hb => exec_keeps_a h (by simp [hb]), exec_keeps_pc h ?_,
    by rw [hlife, if_neg (hne _ (by decide))], hfault, ?_, hsteps,
    exec_keeps_load h (hne _ (by decide))⟩
  · simp [hne .JMP (by decide), hne .JZ (by decide)]
  · rw [exec_output h, if_neg (hne _ (by decide)), List.append_nil]

/-- Settles O30, by the fields of a store and `store_load`. -/
theorem frameOfTheStoreForm : Obligations.FrameOfTheStoreForm := by
  intro v s t h
  rw [exec_sta] at h
  cases h
  refine ⟨rfl, rfl, rfl, rfl, rfl, rfl, rfl, rfl, fun x hx => ?_⟩
  exact (State.store_load s v s.a x).trans (if_neg hx)

/-- Settles O31: both forms are one jump, and a jump changes `PC` only. -/
theorem frameOfControlTransferForms : Obligations.FrameOfControlTransferForms := by
  intro i s t h hi
  obtain ⟨target, rfl⟩ : ∃ target, t = s.jump target := by
    cases i
    case jmp v => rw [exec_jmp] at h; cases h; exact ⟨_, rfl⟩
    case jz v => rw [exec_jz_eq_jump] at h; cases h; exact ⟨_, rfl⟩
    all_goals simp [Instr.mnemonic] at hi
  exact ⟨rfl, rfl, rfl, rfl, rfl, rfl, rfl, fun x => s.jump_load target x⟩

/-- Settles O32, from the fields of the two updates. -/
theorem frameOfOutputAndHaltForms : Obligations.FrameOfOutputAndHaltForms := by
  intro i s t h hi
  cases i
  case out v => rw [exec_out] at h; cases h; simp [Instr.mnemonic]
  case hlt v => rw [exec_hlt] at h; cases h; simp [Instr.mnemonic]
  all_goals simp [Instr.mnemonic] at hi

/-- Settles O33, by `exec_keeps_a` and `exec_withA`, over the ten instructions. -/
theorem registerAIsReadAndWrittenByNoOtherInstruction :
    Obligations.RegisterAIsReadAndWrittenByNoOtherInstruction :=
  ⟨rfl, fun _ _ _ h hi => exec_keeps_a h hi, exec_withA⟩

/-- Settles O34, by `exec_keeps_b` and `exec_withB`, over the ten instructions. -/
theorem registerBIsReadAndWrittenByNoOtherInstruction :
    Obligations.RegisterBIsReadAndWrittenByNoOtherInstruction :=
  ⟨rfl, fun _ _ _ h hi => exec_keeps_b h hi, exec_withB⟩

/-- Settles O35, by `exec_z` and `exec_withZ`, over the ten instructions. -/
theorem zeroFlagRule : Obligations.ZeroFlagRule :=
  ⟨rfl, fun _ _ _ h => exec_z h, exec_withZ⟩

/-- Settles O36, by `exec_withStatus`, over the ten instructions. -/
theorem noInstructionReadsStatusOutputOrStepCount :
    Obligations.NoInstructionReadsStatusOutputOrStepCount :=
  exec_withStatus

/-- Settles O37, by `exec_withPc` and `exec_keeps_pc`. -/
theorem noInstructionReadsPc : Obligations.NoInstructionReadsPc := by
  intro i s p
  obtain ⟨t, ht, ht'⟩ := exec_withPc i s p
  exact ⟨t, ht, exec_keeps_pc ht, ht'⟩

end Sys2Proof.Machine
end

section
/-! Settled: reset, the invariant and the host. -/

namespace Sys2Proof.Machine

/-- Settles O1, field by field. -/
theorem resetState : Obligations.ResetState :=
  ⟨rfl, rfl, rfl, rfl, rfl, rfl, State.reset_load, rfl, rfl⟩

/-- Settles O2: reset has no fault record, is RUNNING, and lists no cell. -/
theorem resetSatisfiesInvariant : Obligations.ResetSatisfiesInvariant := reset_inv

/-- Settles O3, by the three things a step can do. -/
theorem stepKeepsInvariant : Obligations.StepKeepsInvariant :=
  fun _ _ h ht => step_keeps_inv h ht

/-- Settles O4, by induction on the actions with the invariant `Session.Good`. -/
theorem hostActionsKeepInvariant : Obligations.HostActionsKeepInvariant := by
  intro xs c hxs
  obtain ⟨hinv, hrunning⟩ := Session.acts_keep_good Session.good_fresh hxs
  exact ⟨hinv, hrunning⟩

/-- Settles O53, one equivalence for each action. -/
theorem hostActionsFollowTheLifeOfAnInstance : Obligations.HostActionsFollowTheLifeOfAnInstance :=
  fun _ => ⟨rfl, fun _ _ => Session.act_load_eq_next_iff, fun _ _ _ => Session.act_poke_eq_next_iff,
    fun _ _ => Session.act_run_eq_next_iff, Session.observe_isSome_iff⟩

end Sys2Proof.Machine
end

section
/-! Settled: memory as data, the step, the flag and Output over steps, and the memory port. -/

namespace Sys2Proof.Machine

/-- Settles O5: every address below 65536 is an `Addr`. -/
theorem canonicalMemoriesThatReadAlikeAreEqual :
    Obligations.CanonicalMemoriesThatReadAlikeAreEqual := by
  intro m m' hm hm' h
  refine Memory.eq_of_read_eq hm hm' fun x hx => ?_
  simpa [Nat.mod_eq_of_lt (show x < 65536 from hx)] using h (BitVec.ofNat 16 x)

/-- Settles O14, by induction on the number of steps (`run_core_terminal`). -/
theorem terminalStatesNeverChange : Obligations.TerminalStatesNeverChange :=
  fun k _ h => run_core_terminal h k

/-- Settles O16: an illegal byte faults, HLT halts, and the other nine stay RUNNING. -/
theorem lifecycleAfterAStep : Obligations.LifecycleAfterAStep := by
  intro s t hs ht
  cases hb : Mnemonic.ofOpcode (s.load s.pc) with
  | none =>
    have hillegal := (Mnemonic.ofOpcode_eq_none_iff _).mp hb
    rw [step_illegal hs hb] at ht; cases ht
    simp only [State.takeUnknownOpcode_life, reduceCtorEq, true_iff, false_iff]
    omega
  | some m =>
    have hbyte := Mnemonic.toNat_of_ofOpcode hb
    rw [step_life_legal hs hb ht]
    by_cases hm : m = .HLT
    · have : (s.load s.pc).toNat = 255 := by rw [hbyte, hm]; rfl
      simp only [if_pos hm, reduceCtorEq, true_iff, false_iff]
      omega
    · have := Mnemonic.toNat_opcode_le_nine hm
      simp only [if_neg hm, reduceCtorEq, true_iff, false_iff]
      omega

/-- Settles O17, by the opcode byte: illegal, or that of a mnemonic. -/
theorem pcAfterAStep : Obligations.PcAfterAStep := by
  intro s t hs ht
  cases hb : Mnemonic.ofOpcode (s.load s.pc) with
  | none =>
    rw [if_pos ((Mnemonic.ofOpcode_eq_none_iff _).mp hb)]
    rw [step_illegal hs hb] at ht; cases ht
    exact BitVec.toNat_add s.pc 1
  | some m =>
    rw [if_neg (by rw [← Mnemonic.ofOpcode_eq_none_iff, hb]; simp), step_pc_legal hs hb ht]
    simp only [Mnemonic.toNat_of_ofOpcode hb, Mnemonic.toNat_opcode_eq_seven,
      Mnemonic.toNat_opcode_eq_eight]
    split_ifs
    · exact toNat_assembleOperand _ _
    · exact BitVec.toNat_add s.pc 3

/-- Settles O43, by induction on the number of steps (`State.afterSteps_z`). -/
theorem zeroFlagTracksTheLastValueProduced : Obligations.ZeroFlagTracksTheLastValueProduced := by
  intro k s
  rw [State.afterSteps_z]
  cases (s.producedIn k).getLast? with
  | none => rfl
  | some r => exact zeroFlag_eq r

/-- Settles O44, by induction on the number of steps (`State.afterSteps_output`). -/
theorem outputRecordsThePresentedValues : Obligations.OutputRecordsThePresentedValues :=
  ⟨fun _ => State.presents_eq_some_iff, State.afterSteps_output⟩

/-- Settles O56, case by case. -/
theorem memoryPortAccessOrder : Obligations.MemoryPortAccessOrder := by
  refine fun s => ⟨State.accesses_terminal, State.accesses_illegal, fun i hi => ?_⟩
  rw [State.accesses_nextInstr hi, State.dataAccess_eq]

/-- Settles O57: the bytes read fix the next instruction, and it reads one byte more at most. -/
theorem stepDependsOnlyOnTheBytesItReads : Obligations.StepDependsOnlyOnTheBytesItReads := by
  intro s m hreads
  by_cases hs : s.life = .running
  · cases hb : Mnemonic.ofOpcode (s.load s.pc) with
    | none => exact State.stepsAlike_illegal hs hb hreads
    | some n => exact State.stepsAlike_nextInstr (State.nextInstr_legal hs hb) hreads
  · exact State.stepsAlike_terminal hs m

end Sys2Proof.Machine
end

section
/-! SUPPORT. Memory over steps (R39): a step through the host's interface, a cell over many steps, and
the state a STA leaves when it stores where the next instruction begins (R42). -/

namespace Sys2Proof.Machine

/-- Through the host's interface the first of several steps is the step of the core, which never
stops (R131, R76). -/
theorem run_core_succ {s t : State} (h : step s = .next t) (k : Nat) :
    Host.Core.run core (k + 1) s = Host.Core.run core k t := by
  have hstep : core.step s = .next t := h
  simp only [Host.Core.run, hstep]

theorem run_core_eq_afterSteps (k : Nat) (s : State) :
    Host.Core.run core k s = .next (s.afterSteps k) := by
  induction k generalizing s with
  | zero => rfl
  | succ k ih =>
    obtain ⟨t, ht⟩ := step_isNext s
    rw [run_core_succ ht, State.afterSteps_succ ht, ih]

theorem State.afterSteps_load (k : Nat) (s : State) (x : Addr)
    (h : ∀ j < k, (s.afterSteps j).nextInstr ≠ some (.sta x)) :
    (s.afterSteps k).load x = s.load x := by
  induction k generalizing s with
  | zero => rfl
  | succ k ih =>
    obtain ⟨t, ht⟩ := step_isNext s
    have hfirst : s.nextInstr ≠ some (.sta x) := h 0 k.succ_pos
    have hrest : ∀ j < k, (t.afterSteps j).nextInstr ≠ some (.sta x) := fun j hj => by
      rw [← State.afterSteps_succ ht]; exact h (j + 1) (Nat.succ_lt_succ hj)
    rw [State.afterSteps_succ ht, ih t hrest, step_load ht, if_neg hfirst]

/-- A STA that stores over the byte at the following instruction's address leaves a RUNNING core whose
next opcode byte is `A` (R42, D14). -/
theorem step_sta_next {s t : State} (hi : s.nextInstr = some (.sta (s.pc + 3)))
    (ht : step s = .next t) :
    t.life = .running ∧ t.pc = s.pc + 3 ∧ t.load t.pc = s.a := by
  obtain ⟨hs, -⟩ := State.nextInstr_cases hi
  have hload := step_load ht (s.pc + 3)
  rw [if_pos hi] at hload
  rw [step_nextInstr hi, exec_sta] at ht
  cases ht
  exact ⟨hs, rfl, hload⟩

end Sys2Proof.Machine
end

section
/-! Settled: memory over steps. -/

namespace Sys2Proof.Machine

/-- Settles O15, by induction on the number of steps (`run_core_eq_afterSteps`). -/
theorem stepsNeverStop : Obligations.StepsNeverStop := run_core_eq_afterSteps

/-- Settles O38: `step_load` says what every cell holds after a step. -/
theorem onlyStaChangesMemory : Obligations.OnlyStaChangesMemory := by
  intro s t x ht hne
  rw [step_load ht] at hne ⊢
  by_cases hi : s.nextInstr = some (.sta x)
  · exact ⟨hi, if_pos hi⟩
  · exact absurd (if_neg hi) hne

/-- Settles O39, by induction on the number of steps (`State.afterSteps_load`). -/
theorem cellKeepsItsValueUntilStored : Obligations.CellKeepsItsValueUntilStored :=
  State.afterSteps_load

/-- Settles O40: the state after the STA is RUNNING at the stored byte (`step_sta_next`), so that
byte decides the next step. -/
theorem storedByteIsTheNextOpcode : Obligations.StoredByteIsTheNextOpcode := by
  rintro s t v hi ht rfl
  obtain ⟨hlife, hpc, hbyte⟩ := step_sta_next hi ht
  rw [← hbyte, ← hpc]
  constructor
  · intro m hm
    exact ⟨_, State.nextInstr_legal hlife hm, toNat_assembleOperand _ _⟩
  · intro hb
    exact ⟨_, step_illegal hlife hb, State.takeUnknownOpcode_life _ _ _⟩

end Sys2Proof.Machine
end

section
/-! SUPPORT. The opcode table read both ways (R54, R60), and the decoder as the inverse of the
encoder (R62). -/

namespace Sys2Proof

namespace Mnemonic

theorem ofOpcode_eq_some_iff (b : Byte) (m : Mnemonic) : ofOpcode b = some m ↔ b = m.opcode :=
  ⟨fun h => (opcode_of_ofOpcode h).symm, fun h => h ▸ ofOpcode_opcode m⟩

theorem ofName_eq_some_iff (n : String) (m : Mnemonic) : ofName n = some m ↔ n = m.name :=
  ⟨fun h => (name_of_ofName h).symm, fun h => h ▸ ofName_name m⟩

/-- A mnemonic and an operand can be read off the instruction they make. -/
theorem instr_inj {m m' : Mnemonic} {v v' : Operand} (h : m.instr v = m'.instr v') :
    m = m' ∧ v = v' := by
  constructor
  · rw [← mnemonic_instr m v, h, mnemonic_instr]
  · rw [← operand_instr m v, h, operand_instr]

end Mnemonic

theorem lowByte_eq_ofNat (v : Operand) : lowByte v = BitVec.ofNat 8 v.toNat := by
  apply BitVec.eq_of_toNat_eq
  rw [toNat_lowByte, BitVec.toNat_ofNat]

theorem highByte_eq_ofNat (v : Operand) : highByte v = BitVec.ofNat 8 (v.toNat / 256) := by
  have := v.isLt
  apply BitVec.eq_of_toNat_eq
  rw [toNat_highByte, BitVec.toNat_ofNat]; omega

theorem encode_instr (m : Mnemonic) (v : Operand) :
    encode (m.instr v) = [m.opcode, lowByte v, highByte v] := by
  rw [encode, Mnemonic.mnemonic_instr, Mnemonic.operand_instr]

/-- A legal opcode byte decodes whatever two bytes follow it, and those are the operand, low byte
first (R52, R55). -/
theorem decode_opcode (m : Mnemonic) {lo hi : Byte} {v : Operand}
    (h : v.toNat = lo.toNat + 256 * hi.toNat) (rest : List Byte) :
    decode (m.opcode :: lo :: hi :: rest) = .ok (m.instr v, rest) := by
  rw [decode_legal m.ofOpcode_opcode, assembleOperand_eq h]

theorem decode_encode (i : Instr) (rest : List Byte) :
    decode (encode i ++ rest) = .ok (i, rest) := by
  change decode (_ :: _ :: _ :: rest) = _
  rw [decode_legal i.mnemonic.ofOpcode_opcode, assembleOperand_bytes, i.instr_mnemonic]

/-- Bytes that decode begin with a legal opcode and the two bytes of the operand. -/
theorem decode_eq_ok {bs rest : List Byte} {i : Instr} (h : decode bs = .ok (i, rest)) :
    ∃ (m : Mnemonic) (lo hi : Byte), bs = m.opcode :: lo :: hi :: rest ∧
      i = m.instr (assembleOperand lo hi) := by
  match bs with
  | [] => cases h
  | b :: tail =>
    cases hb : Mnemonic.ofOpcode b with
    | none => rw [decode_illegal hb] at h; cases h
    | some m =>
      match tail with
      | [] | [_] => simp only [decode, hb, reduceCtorEq] at h
      | lo :: hi :: _ =>
        rw [decode_legal hb] at h; cases h
        exact ⟨m, lo, hi, by rw [Mnemonic.opcode_of_ofOpcode hb], rfl⟩

/-- The decoder reads an instruction exactly from its encoding. -/
theorem decode_eq_ok_iff {bs rest : List Byte} {i : Instr} :
    decode bs = .ok (i, rest) ↔ bs = encode i ++ rest := by
  constructor
  · intro h
    obtain ⟨m, lo, hi, rfl, rfl⟩ := decode_eq_ok h
    rw [encode_instr, lowByte_assembleOperand, highByte_assembleOperand]; rfl
  · rintro rfl
    exact decode_encode i rest

end Sys2Proof
end

section
/-! Settled: encoding. -/

namespace Sys2Proof

/-- Settles O8: `decode_encode`; well-formedness shuts out no instruction. -/
theorem decodeOfEncode : Obligations.DecodeOfEncode := fun i rest _ => decode_encode i rest

/-- Settles O9: the decoder reads an instruction exactly from its encoding (`decode_eq_ok_iff`). -/
theorem encodingIsABijection : Obligations.EncodingIsABijection := by
  refine ⟨fun m v => ?_, fun m v => decode_eq_ok_iff.mpr (List.append_nil _).symm,
    fun _ _ _ _ => Mnemonic.instr_inj, fun _ _ _ => decode_eq_ok_iff.mp⟩
  rw [encode_instr, lowByte_eq_ofNat, highByte_eq_ofNat]

/-- Settles O7: `decode_opcode` at each of the ten mnemonics, and the illegal bytes as numbers. -/
theorem opcodeByteAloneDecodes : Obligations.OpcodeByteAloneDecodes := by
  constructor
  · intro lo hi rest v hv
    have hdecode := fun m : Mnemonic => decode_opcode m hv rest
    exact ⟨hdecode .LDA, hdecode .LDB, hdecode .LDA_MEM, hdecode .STA, hdecode .ADD, hdecode .SUB,
      hdecode .JMP, hdecode .JZ, hdecode .OUT, hdecode .HLT⟩
  · intro b rest hb
    exact decode_illegal ((Mnemonic.ofOpcode_eq_none_iff b).mpr hb) rest

/-- Settles O6: the ten rows as written, and the table and the spellings read backwards. -/
theorem instructionSetTable : Obligations.InstructionSetTable :=
  ⟨rfl, Mnemonic.ofOpcode_eq_some_iff, Mnemonic.ofName_eq_some_iff⟩

/-- Settles O10: eleven closed words, each decoded by evaluation. -/
theorem sampleWordsDecode : Obligations.SampleWordsDecode := by
  unfold Obligations.SampleWordsDecode
  decide

end Sys2Proof
end

section
/-! SUPPORT. The execution cycle: the step of the bytes at `PC`, the cells a placed instruction
takes up (R50, R72), and how a run ends and what it reports (R78 to R80). -/

namespace Sys2Proof.Machine

variable {s : State}

/-! The step of decoded bytes, and an instruction placed at `PC` -/

theorem step_of_decode {i : Instr} {rest : List Byte} (hs : s.life = .running)
    (h : decode s.bytesAtPc = .ok (i, rest)) : step s = exec i (s.advance 3) := by
  obtain ⟨m, hm, rfl, -⟩ := decode_three h
  exact step_legal hs hm

theorem decode_tableBytes {nbits w : Nat} {i : Instr} (h : decodeTableWord nbits w = some i) :
    ∃ rest, decode (tableBytes nbits w) = .ok (i, rest) := by
  unfold decodeTableWord at h
  split at h
  next rest hdecode => cases h; exact ⟨rest, hdecode⟩
  next => cases h

/-- Every byte of memory after three stores at rising addresses (R37). -/
theorem State.storeBytes_three_load (s : State) (x : Addr) (b lo hi : Byte) (y : Addr) :
    (s.storeBytes x [b, lo, hi]).load y =
      if y = x + 2 then hi else if y = x + 1 then lo else if y = x then b else s.load y := by
  have e : x + 1 + 1 = x + 2 := BitVec.add_assoc x 1 1
  simp only [State.storeBytes, State.store_load, e]

theorem State.withFetchWord_eq (s : State) (nbits w : Nat) :
    s.withFetchWord nbits w = { s with mem := (s.withFetchWord nbits w).mem } :=
  State.storeBytes_eq s s.pc _

theorem State.withFetchWord_life (s : State) (nbits w : Nat) :
    (s.withFetchWord nbits w).life = s.life := by rw [State.withFetchWord_eq]

theorem State.withFetchWord_pc (s : State) (nbits w : Nat) :
    (s.withFetchWord nbits w).pc = s.pc := by rw [State.withFetchWord_eq]

theorem State.withFetchWord_load (s : State) (nbits w : Nat) {y : Addr} (h0 : y ≠ s.pc)
    (h1 : y ≠ s.pc + 1) (h2 : y ≠ s.pc + 2) :
    (s.withFetchWord nbits w).load y = s.load y := by
  refine (State.storeBytes_three_load s s.pc _ _ _ y).trans ?_
  rw [if_neg h2, if_neg h1, if_neg h0]

/-- The next fetch reads the bytes placed: the three cells are three, also at the top of memory. -/
theorem State.withFetchWord_bytesAtPc (s : State) (nbits w : Nat) :
    (s.withFetchWord nbits w).bytesAtPc = tableBytes nbits w := by
  have hload : ∀ y, (s.withFetchWord nbits w).load y = _ :=
    State.storeBytes_three_load s s.pc _ _ _
  rw [State.bytesAtPc, State.withFetchWord_pc, hload, hload, hload]
  simp [tableBytes]

/-! The end of a run and its verdict -/

/-- How the loop of a run ends, the steps counted from 0 (R78, R80). -/
theorem runLoop_from_zero (n : Nat) (s : State) : ∃ k,
    runLoop n { s with steps := 0 } = .next { s.afterSteps k with steps := k } ∧ k ≤ n ∧
    (∀ j < k, (s.afterSteps j).life = .running) ∧
    (k = n ∨ (s.afterSteps k).life ≠ .running) := by
  simpa only [State.afterSteps_withSteps, Nat.zero_add] using runLoop_eq n { s with steps := 0 }

/-- The three reports on a final state, the lifecycle state deciding which (R79, D5). -/
theorem verdictOn_cases {n : Nat} {v : Verdict} (h : verdictOn n s = .next v) :
    (s.life = .halted ∧ v = .halted) ∨
    (s.life = .running ∧ v = .stepBudgetExceeded n) ∨
    (s.life = .faulted ∧ ∃ r, s.fault = some r ∧ v = .unknownOpcode r.opcode r.pc) := by
  cases hlife : s.life with
  | halted => rw [verdictOn_halted n hlife] at h; cases h; simp
  | running => rw [verdictOn_running n hlife] at h; cases h; simp
  | faulted =>
    cases hfault : s.fault with
    | none => simp only [verdictOn, hlife, hfault, reduceCtorEq] at h
    | some r => rw [verdictOn_faulted n hlife hfault] at h; cases h; simp

/-- A state that satisfies the invariant can be reported on: a FAULTED one has a record (R16). -/
theorem verdictOn_isNext (h : s.Inv) (n : Nat) : ∃ v, verdictOn n s = .next v := by
  cases hlife : s.life with
  | halted => exact ⟨_, verdictOn_halted n hlife⟩
  | running => exact ⟨_, verdictOn_running n hlife⟩
  | faulted =>
    obtain ⟨r, hr⟩ := Option.isSome_iff_exists.mp (h.record.mpr hlife)
    exact ⟨_, verdictOn_faulted n hlife hr⟩

theorem run_eq_next {n : Nat} {t : State} {v : Verdict}
    (hloop : runLoop n { s with steps := 0 } = .next t) (hv : verdictOn n t = .next v) :
    run n s = .next ⟨v, t⟩ := by
  rw [run, hloop, andThen_next, hv, andThen_next]

/-- A run that leaves the core RUNNING has taken its whole budget (R141). -/
theorem run_steps_of_running {n : Nat} {r : RunResult} (h : run n s = .next r)
    (hr : r.final.life = .running) : r.final.steps = n := by
  obtain ⟨hloop, -⟩ := run_cases h
  obtain ⟨k, hk, -, -, hend⟩ := runLoop_from_zero n s
  rw [hk, Host.Outcome.next.injEq] at hloop
  rw [← hloop] at hr ⊢
  exact hend.resolve_right (absurd hr)

theorem Verdict.failure_eq_none_iff (v : Verdict) : v.failure = none ↔ v = .halted := by
  cases v <;> simp [Verdict.failure]

end Sys2Proof.Machine
end

section
/-! Settled: the execution cycle and the run controller. -/

namespace Sys2Proof.Machine

/-- Settles O11: the three bytes of the statement are `State.bytesAtPc` (`step_of_decode`). -/
theorem stepRunsTheDecodedInstruction : Obligations.StepRunsTheDecodedInstruction :=
  fun _ _ hs h => step_of_decode hs h

/-- Settles O12: the decode fault on the state past the opcode byte, and its one access. -/
theorem illegalOpcodeEndsTheStep : Obligations.IllegalOpcodeEndsTheStep := by
  intro s hs hbyte
  have hb := (Mnemonic.ofOpcode_eq_none_iff _).mpr hbyte
  exact ⟨State.accesses_illegal hs hb, _, step_illegal hs hb, rfl, rfl, rfl, rfl, rfl, rfl⟩

/-- Settles O18: the bytes at `PC` are those of the word (`State.withFetchWord_bytesAtPc`). -/
theorem placedInstructionRunsNext : Obligations.PlacedInstructionRunsNext := by
  intro s nbits w i hi
  refine ⟨by rw [State.withFetchWord_eq], fun x => State.withFetchWord_load s nbits w, fun hs => ?_⟩
  obtain ⟨rest, hdecode⟩ := decode_tableBytes hi
  rw [← State.withFetchWord_bytesAtPc s] at hdecode
  rw [step_of_decode ((State.withFetchWord_life s nbits w).trans hs) hdecode, State.advance,
    State.withFetchWord_pc]

/-- Settles O45: the loop ends so (`runLoop_from_zero`), in a state that can be reported on. -/
theorem runEndsAtTheFirstTerminalStateOrTheBudget :
    Obligations.RunEndsAtTheFirstTerminalStateOrTheBudget := by
  intro n s h
  obtain ⟨k, hloop, hk, hbefore, hend⟩ := runLoop_from_zero n s
  obtain ⟨v, hv⟩ := verdictOn_isNext ((h.afterSteps k).withSteps k) n
  exact ⟨k, _, run_eq_next hloop hv, hk, hbefore, hend, rfl⟩

/-- Settles O46, by the three reports of `verdictOn_cases`. -/
theorem verdictReportsTheFinalState : Obligations.VerdictReportsTheFinalState := by
  intro n s r h
  obtain ⟨-, hverdict⟩ := run_cases h
  have hsteps := run_steps_of_running h
  have hfailure := r.verdict.failure_eq_none_iff
  rcases verdictOn_cases hverdict with ⟨hlife, hv⟩ | ⟨hlife, hv⟩ | ⟨hlife, ⟨b, p⟩, hfault, hv⟩
  · refine ⟨?_, ?_, ?_, hsteps, hfailure⟩ <;> simp [hv, hlife]
  · refine ⟨?_, ?_, ?_, hsteps, hfailure⟩ <;> simp [hv, hlife, eq_comm (a := n)]
  · refine ⟨?_, ?_, ?_, hsteps, hfailure⟩ <;> simp [hv, hlife, hfault]

end Sys2Proof.Machine
end

section
/-! SUPPORT. The two register writes as record updates with the flag through the value's number (R13),
a load of the cell just stored (R88), and which address an assembled operand is (R52). -/

namespace Sys2Proof.Machine

namespace State

theorem produceA_eq (s : State) (r : Byte) :
    s.produceA r = { s with a := r, z := decide (r.toNat = 0) } := by
  rw [produceA, zeroFlag_eq]

theorem produceB_eq (s : State) (r : Byte) :
    s.produceB r = { s with b := r, z := decide (r.toNat = 0) } := by
  rw [produceB, zeroFlag_eq]

theorem store_load_same (s : State) (x : Addr) (v : Byte) : (s.store x v).load x = v := by
  rw [store_load, if_pos rfl]

end State

theorem eq_assembleOperand_iff (x : Addr) (lo hi : Byte) :
    x = assembleOperand lo hi ↔ x.toNat = lo.toNat + 256 * hi.toNat := by
  rw [← BitVec.toNat_inj, toNat_assembleOperand]

end Sys2Proof.Machine
end

section
/-! Settled: the loads and the store. -/

namespace Sys2Proof.Machine

/-- Settles O41: the load reads the cell just stored (`State.store_load_same`), and neither
instruction writes `B`. -/
theorem storeThenLoadRoundTrips : Obligations.StoreThenLoadRoundTrips := by
  intro v s
  refine ⟨_, _, exec_sta v s, exec_ldaMem v _, ?_⟩
  rw [State.store_load_same, State.produceA_eq]
  exact ⟨rfl, rfl, rfl⟩

/-- Settles O19: `A` takes the low byte, which of an assembled operand is the first operand byte. -/
theorem ldaLoadsTheLowOperandByteIntoA : Obligations.LdaLoadsTheLowOperandByteIntoA := by
  constructor
  · intro v s
    rw [exec_lda, State.produceA_eq, toNat_lowByte, lowByte_eq_ofNat]
  · intro s lo hi hs hbytes
    rw [step_bytes (m := .LDA) rfl hs hbytes, Mnemonic.instr, exec_lda, lowByte_assembleOperand,
      State.produceA_eq]
    rfl

/-- Settles O20: as LDA, with `B` written and the flag of `B`. -/
theorem ldbLoadsTheLowOperandByteIntoB : Obligations.LdbLoadsTheLowOperandByteIntoB := by
  constructor
  · intro v s
    rw [exec_ldb, State.produceB_eq, toNat_lowByte, lowByte_eq_ofNat]
  · intro s lo hi hs hbytes
    rw [step_bytes (m := .LDB) rfl hs hbytes, Mnemonic.instr, exec_ldb, lowByte_assembleOperand,
      State.produceB_eq]
    rfl

/-- Settles O21: the assembled operand is the address, and the fetch changes no cell. -/
theorem ldaMemLoadsTheAddressedByteIntoA : Obligations.LdaMemLoadsTheAddressedByteIntoA := by
  constructor
  · intro v s
    rw [exec_ldaMem, State.produceA_eq]
  · intro s lo hi x hs hbytes hx
    rw [step_bytes (m := .LDA_MEM) rfl hs hbytes, assembleOperand_eq hx, Mnemonic.instr,
      exec_ldaMem, State.advance_load, State.produceA_eq]
    rfl

/-- Settles O22: a store changes memory only, and `State.store_load` says what every cell reads as
after it. -/
theorem staStoresAInExactlyTheAddressedCell : Obligations.StaStoresAInExactlyTheAddressedCell := by
  constructor
  · intro v s
    exact ⟨_, exec_sta v s, rfl, State.store_load s v s.a⟩
  · intro s lo hi hs hbytes
    refine ⟨(s.advance 3).store (assembleOperand lo hi) s.a, ?_, rfl, fun x => ?_⟩
    · rw [step_bytes (m := .STA) rfl hs hbytes, Mnemonic.instr, exec_sta, State.advance_a]
    · simp only [State.store_load, State.advance_load, eq_assembleOperand_iff]

end Sys2Proof.Machine
end

section
/-! SUPPORT. The narrowed sum and difference as the sum and difference of `BitVec 8`, and through them
ADD and SUB as record updates (R95 to R97). -/

namespace Sys2Proof.Machine

theorem sum8_eq_add (x y : Byte) : sum8 x y = x + y :=
  BitVec.eq_of_toNat_eq (by rw [toNat_sum8, BitVec.toNat_add])

theorem difference8_eq_sub (x y : Byte) : difference8 x y = x - y := by
  apply BitVec.eq_of_toNat_eq
  rw [toNat_difference8, BitVec.toNat_sub]
  omega

theorem sum8_eq_ofNat (x y : Byte) : sum8 x y = BitVec.ofNat 8 (x.toNat + y.toNat) :=
  BitVec.eq_of_toNat_eq (by rw [toNat_sum8, BitVec.toNat_ofNat])

theorem difference8_eq_ofNat (x y : Byte) :
    difference8 x y = BitVec.ofNat 8 (x.toNat + 256 - y.toNat) :=
  BitVec.eq_of_toNat_eq (by rw [toNat_difference8, BitVec.toNat_ofNat])

theorem zeroFlag_difference8 (x y : Byte) : zeroFlag (difference8 x y) = decide (x = y) :=
  decide_eq_decide.mpr (difference8_eq_zero x y)

theorem exec_add_eq (v : Operand) (s : State) : exec (.add v) s =
    .next { s with
      a := BitVec.ofNat 8 (s.a.toNat + s.b.toNat)
      z := decide ((s.a.toNat + s.b.toNat) % 256 = 0) } := by
  rw [exec_add, State.produceA_eq, toNat_sum8, sum8_eq_ofNat]

theorem exec_sub_eq (v : Operand) (s : State) : exec (.sub v) s =
    .next { s with
      a := BitVec.ofNat 8 (s.a.toNat + 256 - s.b.toNat), z := decide (s.a = s.b) } := by
  rw [exec_sub, State.produceA, zeroFlag_difference8, difference8_eq_ofNat]

end Sys2Proof.Machine
end

section
/-! Settled: the arithmetic. -/

namespace Sys2Proof.Machine

/-- Settles O42: neither instruction writes `B`, and on bytes the laws are those of `+` and `-`
(`sum8_eq_add`, `difference8_eq_sub`). -/
theorem addAndSubUndoEachOther : Obligations.AddAndSubUndoEachOther := by
  intro v w s
  refine ⟨⟨_, _, exec_add v s, exec_sub w _, ?_⟩, ⟨_, _, exec_sub v s, exec_add w _, ?_⟩,
    ⟨_, _, exec_add v s, exec_add v _, ?_⟩⟩
  · simp only [State.produceA_a, State.produceA_b, sum8_eq_add, difference8_eq_sub,
      BitVec.add_sub_cancel]
  · simp only [State.produceA_a, State.produceA_b, sum8_eq_add, difference8_eq_sub,
      BitVec.sub_add_cancel]
  · have hcomm : sum8 s.b s.a = sum8 s.a s.b := by
      rw [sum8_eq_add, sum8_eq_add, BitVec.add_comm]
    exact ⟨hcomm, congrArg zeroFlag hcomm⟩

/-- Settles O23: the fetch changes `PC` only, so the step is `exec_add_eq` past the instruction. -/
theorem addAddsBToAModulo256 : Obligations.AddAddsBToAModulo256 := by
  refine ⟨exec_add_eq, fun s lo hi hs hbytes => ?_⟩
  rw [step_bytes (m := .ADD) rfl hs hbytes, Mnemonic.instr, exec_add_eq]
  rfl

/-- Settles O24: as ADD, by `exec_sub_eq`; equal operands give the zero (`difference8_eq_zero`). -/
theorem subSubtractsBFromAModulo256 : Obligations.SubSubtractsBFromAModulo256 := by
  refine ⟨exec_sub_eq, fun s lo hi hs hbytes => ?_⟩
  rw [step_bytes (m := .SUB) rfl hs hbytes, Mnemonic.instr, exec_sub_eq]
  rfl

end Sys2Proof.Machine
end

section
/-! SUPPORT. A jump as a record update: it overwrites `PC`, so the fetch's advance before it is lost
(R12, R105). -/

namespace Sys2Proof.Machine.State

theorem jump_eq (s : State) (x : Addr) : s.jump x = { s with pc := x } := rfl

theorem jump_advance (s : State) (n x : Addr) : (s.advance n).jump x = s.jump x := rfl

end Sys2Proof.Machine.State
end

section
/-! Settled: the control transfer. -/

namespace Sys2Proof.Machine

/-- Settles O25: the jump overwrites the `PC` past the instruction (`State.jump_advance`). -/
theorem jmpSetsPcToTheOperand : Obligations.JmpSetsPcToTheOperand := by
  constructor
  · intro v s
    rw [exec_jmp, State.jump_eq]
  · intro s lo hi x hs hbytes hx
    rw [step_bytes (m := .JMP) rfl hs hbytes, assembleOperand_eq hx, Mnemonic.instr, exec_jmp,
      State.jump_advance, State.jump_eq]

/-- Settles O26: taken or not, JZ is one jump (`exec_jz_eq_jump`), to the `PC` past the instruction
when it is not taken. -/
theorem jzSetsPcToTheOperandWhenZIsTrue : Obligations.JzSetsPcToTheOperandWhenZIsTrue := by
  constructor
  · intro v s
    rw [exec_jz_eq_jump, State.jump_eq]
  · intro s lo hi x hs hbytes hx
    rw [step_bytes (m := .JZ) rfl hs hbytes, assembleOperand_eq hx, Mnemonic.instr,
      exec_jz_eq_jump, State.jump_advance, State.jump_eq, State.advance_z, State.advance_pc]

end Sys2Proof.Machine
end

section
/-! SUPPORT. `OutputAppend(A)` as a record update (R8, R115). -/

namespace Sys2Proof.Machine

theorem exec_out_eq (v : Operand) (s : State) :
    exec (.out v) s = .next { s with output := s.output ++ [s.a] } := by
  rw [exec_out, State.outputAppend]

end Sys2Proof.Machine
end

section
/-! Settled: the output. -/

namespace Sys2Proof.Machine

/-- Settles O27: the fetch changes `PC` only, so the step is `exec_out_eq` past the instruction. -/
theorem outAppendsAToOutput : Obligations.OutAppendsAToOutput := by
  refine ⟨exec_out_eq, fun s lo hi hs hbytes => ?_⟩
  rw [step_bytes (m := .OUT) rfl hs hbytes, Mnemonic.instr, exec_out_eq, State.advance]

end Sys2Proof.Machine
end

section
/-! SUPPORT. A run that no step changes, and a schedule over instances as each instance's own number
of steps (R141, R146). -/

namespace Sys2Proof.Machine

/-- A state that a step leaves as it is stays so over any number of steps. -/
theorem State.afterSteps_of_step_self {s : State} (h : step s = .next s) (k : Nat) :
    s.afterSteps k = s := by
  induction k with
  | zero => rfl
  | succ k ih => rw [State.afterSteps_succ h, ih]

/-- A RUNNING core that a step leaves as it is uses up every budget (R78, R141). -/
theorem run_of_step_self {s : State} (hs : s.life = .running) (h : step s = .next s) (n : Nat) :
    run n s = .next ⟨.stepBudgetExceeded n, { s with steps := n }⟩ := by
  obtain ⟨k, hloop, -, -, hend⟩ := runLoop_from_zero n s
  rw [State.afterSteps_of_step_self h] at hloop hend
  obtain rfl : k = n := hend.resolve_right (absurd hs)
  exact run_eq_next hloop (verdictOn_running k hs)

namespace Fleet

/-- One step of the fleet is one step of the instance named, and of no other (R146). -/
theorem stepAt_eq (k : Nat) (f : Fleet) :
    stepAt k f = .next (f.modify k (State.afterSteps 1)) := by
  induction f generalizing k with
  | nil => cases k <;> rfl
  | cons s rest ih =>
    cases k with
    | zero =>
      obtain ⟨t, ht⟩ := step_isNext s
      rw [stepAt, ht, andThen_next, List.modify_zero_cons, State.afterSteps_succ ht,
        State.afterSteps_zero]
    | succ k => rw [stepAt, ih, andThen_next, List.modify_succ_cons]

/-- The step of instance `k` before a schedule's others is one more of its own steps. -/
theorem mapIdx_afterSteps_modify (k : Nat) (ks : List Nat) (f : Fleet) :
    (f.modify k (State.afterSteps 1)).mapIdx (fun j s => s.afterSteps (ks.count j)) =
      f.mapIdx (fun j s => s.afterSteps ((k :: ks).count j)) := by
  apply List.ext_getElem?
  intro j
  simp only [List.getElem?_mapIdx, List.getElem?_modify, Option.map_eq_map, Option.map_map]
  congr 1
  funext s
  by_cases hj : k = j
  · simp [hj, State.afterSteps_add, Nat.add_comm]
  · simp [hj]

/-- A schedule takes each instance as many of its own steps as it names it (R146). -/
theorem follow_eq (ks : List Nat) (f : Fleet) :
    follow ks f = .next (f.mapIdx fun j s => s.afterSteps (ks.count j)) := by
  induction ks generalizing f with
  | nil => simp [follow, List.mapIdx_eq_zipIdx_map]
  | cons k ks ih => rw [follow, stepAt_eq, andThen_next, ih, mapIdx_afterSteps_modify]

end Fleet

end Sys2Proof.Machine
end

section
/-! Settled: the step budget and the independence of instances. -/

namespace Sys2Proof.Machine

/-- Settles O47: such a jump sets `PC` to what it is (O25), so the step changes nothing and the run
uses up its budget (`run_of_step_self`). -/
theorem selfJumpExceedsEveryBudget : Obligations.SelfJumpExceedsEveryBudget := by
  intro n s lo hi hs hbytes hpc
  obtain ⟨-, hstep⟩ := jmpSetsPcToTheOperand
  exact run_of_step_self hs (hstep s lo hi s.pc hs hbytes hpc) n

/-- Settles O55, by induction on the schedule (`Fleet.follow_eq`). -/
theorem instancesDoNotInteract : Obligations.InstancesDoNotInteract := by
  intro ks f
  refine ⟨_, Fleet.follow_eq ks f, List.length_mapIdx, fun k s hk => ?_⟩
  rw [List.getElem?_mapIdx, hk, Option.map_some]

end Sys2Proof.Machine
end

section
/-! SUPPORT. The loader's answers as equivalences over the assembly of the pairs (R168, R169), and the
loaded machine read back: instruction by instruction, the failsafe, and zeros above (R165 to R171). -/

namespace Sys2Proof

theorem SourceProgram.fits_iff (p : SourceProgram) :
    SourceProgram.fits p = true ↔ 3 * p.length + 1 ≤ 65536 := decide_eq_true_iff

/-- Reducing modulo 65536 first changes neither byte of an operand: they are its lower two. -/
theorem lowByte_ofNat (n : Nat) : lowByte (BitVec.ofNat 16 n) = BitVec.ofNat 8 n := by
  apply BitVec.eq_of_toNat_eq
  rw [toNat_lowByte, BitVec.toNat_ofNat, BitVec.toNat_ofNat]; omega

theorem highByte_ofNat (n : Nat) : highByte (BitVec.ofNat 16 n) = BitVec.ofNat 8 (n / 256) := by
  apply BitVec.eq_of_toNat_eq
  rw [toNat_highByte, BitVec.toNat_ofNat, BitVec.toNat_ofNat]; omega

namespace Machine

section
variable {p : SourceProgram} {is : List Instr} {s t : State}

/-! What the loader answers -/

theorem length_of_assembleProgram (h : assembleProgram p = .next is) : is.length = p.length := by
  rw [(assembleProgram_next h).2, List.length_map]

/-- Pair `k` of an assembled program gives instruction `k`. -/
theorem getElem?_of_assembleProgram {k : Nat} {q : SourcePair} (h : assembleProgram p = .next is)
    (hq : p[k]? = some q) : ∃ m, Mnemonic.ofName q.mnemonic = some m ∧
      is[k]? = some (m.instr (BitVec.ofNat 16 (q.operand.getD 0))) := by
  obtain ⟨hall, rfl⟩ := assembleProgram_next h
  have hwf : q.wf = true := List.all_eq_true.mp hall q (List.mem_of_getElem? hq)
  obtain ⟨hknown, -⟩ := Bool.and_eq_true_iff.mp hwf
  obtain ⟨m, hm⟩ := (mnemonicKnown_iff q).mp hknown
  exact ⟨m, hm, by rw [List.getElem?_map, hq, Option.map_some, hm, Option.getD_some]⟩

/-- With every pair assembled, the length alone decides (R169). -/
theorem loadProgram_of_assembleProgram (h : assembleProgram p = .next is) (s : State) :
    loadProgram p s = if SourceProgram.fits p = true then .next (s.storeBytes 0 (image is))
      else .refused (.programTooLong p.length) := by
  simp only [loadProgram, h, andThen_next, length_of_assembleProgram h, SourceProgram.fits,
    decide_eq_true_iff]
  rfl

theorem loadProgram_isNext_iff (p : SourceProgram) (s : State) :
    (∃ t, loadProgram p s = .next t) ↔ SourceProgram.wf p = true := by
  rw [SourceProgram.wf, Bool.and_eq_true_iff]
  constructor
  · rintro ⟨t, ht⟩
    obtain ⟨is, his, -, hlength, -⟩ := loadProgram_next ht
    exact ⟨(assembleProgram_next his).1, (SourceProgram.fits_iff p).mpr hlength⟩
  · rintro ⟨hall, hfits⟩
    obtain ⟨is, his⟩ := assembleProgram_wf hall
    exact ⟨_, by rw [loadProgram_of_assembleProgram his, if_pos hfits]⟩

/-- A load fails exactly when the assembly of its pairs does (R168). -/
theorem loadProgram_eq_fault_iff {f : Fault} :
    loadProgram p s = .fault f ↔ assembleProgram p = .fault f := by
  cases h : assembleProgram p with
  | next is => rw [loadProgram_of_assembleProgram h]; split_ifs <;> simp
  | fault g => simp [loadProgram, h, andThen]
  | refused r => simp [loadProgram, h, andThen]

/-- A load is refused for an operand, or for its length once every pair is assembled (R169). -/
theorem loadProgram_refused {r : Refusal} (h : loadProgram p s = .refused r) :
    assembleProgram p = .refused r ∨ (21845 < p.length ∧ r = .programTooLong p.length) := by
  cases his : assembleProgram p with
  | next is =>
    rw [loadProgram_of_assembleProgram his] at h
    split_ifs at h with hfits
    rw [SourceProgram.fits_iff] at hfits
    cases h
    exact .inr ⟨by omega, rfl⟩
  | fault f => simp [loadProgram, his, andThen] at h
  | refused r' => exact .inl (by simpa [loadProgram, his, andThen] using h)

/-- An unknown mnemonic is the only thing that can stop assembly when every operand is in range. -/
theorem assembleProgram_isFault (hunknown : ∃ q ∈ p, q.mnemonicKnown = false)
    (hfits : ∀ q ∈ p, q.operandFits = true) : ∃ f, assembleProgram p = .fault f := by
  cases h : assembleProgram p with
  | next is =>
    obtain ⟨q, hq, hk⟩ := hunknown
    obtain ⟨hall, -⟩ := assembleProgram_next h
    have hwf : q.wf = true := List.all_eq_true.mp hall q hq
    simp [SourcePair.wf, hk] at hwf
  | fault f => exact ⟨f, rfl⟩
  | refused r =>
    obtain ⟨q, hq, hnot, -⟩ := assembleProgram_refused h
    simp [hfits q hq] at hnot

/-! The loaded machine -/

theorem loadProgram_reset_life (h : loadProgram p State.reset = .next t) : t.life = .running :=
  (loadProgram_keeps_inv reset_inv rfl h).2

theorem loadProgram_reset_instr {k : Nat} {i : Instr} (h : loadProgram p State.reset = .next t)
    (his : assembleProgram p = .next is) (hk : is[k]? = some i) :
    t.load (BitVec.ofNat 16 (3 * k)) = i.mnemonic.opcode ∧
    t.load (BitVec.ofNat 16 (3 * k + 1)) = lowByte i.operand ∧
    t.load (BitVec.ofNat 16 (3 * k + 2)) = highByte i.operand := by
  obtain ⟨hlength, hfits, hload, -⟩ := loadProgram_reset h his
  obtain ⟨h0, h1, h2⟩ := image_instr hk
  obtain ⟨hlt, -⟩ := List.getElem?_eq_some_iff.mp hk
  refine ⟨?_, ?_, ?_⟩
  · rw [hload _ (by omega), h0, Option.getD_some]
  · rw [hload _ (by omega), h1, Option.getD_some]
  · rw [hload _ (by omega), h2, Option.getD_some]

theorem loadProgram_reset_failsafe (h : loadProgram p State.reset = .next t) :
    t.load (BitVec.ofNat 16 (3 * p.length)) = 0xFF := by
  obtain ⟨is, his, -⟩ := loadProgram_next h
  obtain ⟨hlength, hfits, hload, -⟩ := loadProgram_reset h his
  rw [hload _ (by omega), ← hlength, image_failsafe, Option.getD_some]

theorem loadProgram_reset_above (h : loadProgram p State.reset = .next t) {x : Addr}
    (hx : 3 * p.length < x.toNat) : t.load x = 0 := by
  obtain ⟨is, his, -⟩ := loadProgram_next h
  obtain ⟨hlength, -, hload, -⟩ := loadProgram_reset h his
  have hpast : (image is)[x.toNat]? = none :=
    List.getElem?_eq_none (by rw [length_image, hlength]; omega)
  have hread := hload x.toNat x.isLt
  rwa [BitVec.ofNat_toNat, BitVec.setWidth_eq, hpast, Option.getD_none] at hread

end

theorem State.bytesAtPc_withPc (s : State) (n : Nat) :
    State.bytesAtPc { s with pc := BitVec.ofNat 16 n } = [s.load (BitVec.ofNat 16 n),
      s.load (BitVec.ofNat 16 (n + 1)), s.load (BitVec.ofNat 16 (n + 2))] := by
  rw [BitVec.ofNat_add, BitVec.ofNat_add]; rfl

/-- The next instruction of a RUNNING core is the one whose encoding stands at `PC`. -/
theorem State.nextInstr_of_bytesAtPc {s : State} {i : Instr} (hs : s.life = .running)
    (h : s.bytesAtPc = encode i) : s.nextInstr = some i := by
  have hdecode : decode (encode i) = .ok (i, []) := decode_eq_ok_iff.mpr (List.append_nil _).symm
  simp only [State.nextInstr, hs, h, hdecode]

end Machine

end Sys2Proof
end

section
/-! SUPPORT. Larger budgets of the run loop (R178), and the host's actions one after another, each
going through (R162). -/

namespace Sys2Proof.Machine

/-- A budget spent in two parts is spent as one. -/
theorem runLoop_add (n d : Nat) (s : State) :
    runLoop (n + d) s = andThen (runLoop n s) (runLoop d) := by
  induction n generalizing s with
  | zero => rw [Nat.zero_add]; rfl
  | succ n ih =>
    by_cases hs : s.life = .running
    · obtain ⟨t, ht⟩ := step_isNext s
      rw [Nat.add_right_comm, runLoop_running hs ht, runLoop_running hs ht, ih]
    · rw [runLoop_terminal hs, runLoop_terminal hs, andThen_next, runLoop_terminal hs]

/-- The report on a terminal state does not depend on the budget (R79). -/
theorem verdictOn_terminal {s : State} (h : s.life ≠ .running) (n m : Nat) :
    verdictOn m s = verdictOn n s := by
  cases hlife : s.life with
  | running => exact absurd hlife h
  | halted => rw [verdictOn_halted m hlife, verdictOn_halted n hlife]
  | faulted => simp only [verdictOn, hlife]

theorem run_isNext {s : State} (h : s.Inv) (n : Nat) : ∃ r, run n s = .next r := by
  obtain ⟨-, r, hr, -⟩ := runEndsAtTheFirstTerminalStateOrTheBudget n s h
  exact ⟨r, hr⟩

namespace Session

theorem acts_cons {c d : Session} {x : HostAction} (h : c.act x = .next d)
    (xs : List HostAction) : acts (x :: xs) c = acts xs d := by
  rw [acts, h, andThen_next]

theorem acts_append (xs ys : List HostAction) (c : Session) :
    acts (xs ++ ys) c = andThen (acts xs c) (acts ys) := by
  induction xs generalizing c with
  | nil => rfl
  | cons x xs ih =>
    rw [List.cons_append, acts, acts]
    cases c.act x with
    | next d => exact ih d
    | fault f => rfl
    | refused r => rfl

/-- Pokes of a loaded instance go through and leave it loaded (R172). -/
theorem acts_pokes {c : Session} (hc : c.phase = .loaded) (pokes : List (Addr × Byte)) :
    ∃ c', acts (pokes.map fun q => .poke q.1 q.2) c = .next c' ∧ c'.phase = .loaded := by
  induction pokes generalizing c with
  | nil => exact ⟨c, rfl, hc⟩
  | cons q pokes ih =>
    obtain ⟨c', hc', hphase⟩ := ih (c := ⟨c.machine.store q.1 q.2, .loaded⟩) rfl
    refine ⟨c', ?_, hphase⟩
    rw [List.map_cons, acts_cons (act_poke_eq_next_iff.mpr ⟨hc, rfl⟩), hc']

/-- The first run of a good instance goes through, and the host can observe then (R28). -/
theorem act_run_isNext {c : Session} (h : c.Good) (hc : ∀ v, c.phase ≠ .ended v)
    (n : Option Nat) : ∃ c', c.act (.run n) = .next c' ∧ c'.observe.isSome = true := by
  obtain ⟨⟨v, t⟩, hrun⟩ := run_isNext h.inv (n.getD Config.defaultMaxSteps)
  exact ⟨⟨t, .ended v⟩, act_run_eq_next_iff.mpr ⟨hc, v, rfl, hrun⟩, rfl⟩

end Session

end Sys2Proof.Machine
end

section
/-! Settled: the loader, larger budgets, and the whole life of an instance. -/

namespace Sys2Proof.Machine

/-- Settles O52: the three bytes at `3k` are the encoding of instruction `k`, which the decoder reads
back (`State.nextInstr_of_bytesAtPc`), and the byte at `3n` is the opcode of HLT. -/
theorem loadedProgramIsWhatTheCoreDecodes : Obligations.LoadedProgramIsWhatTheCoreDecodes := by
  intro p is t his ht
  have hlife := loadProgram_reset_life ht
  refine ⟨fun k i hk => ?_, ?_⟩
  · obtain ⟨hopcode, hlo, hhi⟩ := loadProgram_reset_instr ht his hk
    refine State.nextInstr_of_bytesAtPc hlife ?_
    rw [State.bytesAtPc_withPc, hopcode, hlo, hhi, encode]
  · have hopcode : Mnemonic.ofOpcode (t.load (BitVec.ofNat 16 (3 * p.length))) = some .HLT := by
      rw [loadProgram_reset_failsafe ht]; rfl
    exact ⟨_, step_legal (s := { t with pc := BitVec.ofNat 16 (3 * p.length) }) hlife hopcode, rfl⟩

/-- Settles O48: the budget left over changes nothing in a terminal state (`runLoop_add`,
`runLoop_terminal`), nor does it change the report. -/
theorem largerBudgetGivesTheSameEnd : Obligations.LargerBudgetGivesTheSameEnd := by
  intro n m s r hnm hrun hend
  obtain ⟨d, rfl⟩ := Nat.exists_eq_add_of_le hnm
  obtain ⟨hloop, hverdict⟩ := run_cases hrun
  refine run_eq_next ?_ ((verdictOn_terminal hend n (n + d)).trans hverdict)
  rw [runLoop_add, hloop, andThen_next, runLoop_terminal hend]

/-- Settles O49, by `loadProgram_isNext_iff`. -/
theorem loaderAcceptsExactlyWellFormedPrograms :
    Obligations.LoaderAcceptsExactlyWellFormedPrograms := loadProgram_isNext_iff

/-- Settles O50: what stops a load is what stops the assembly of its pairs, or else its length. -/
theorem loaderNamesWhatIsWrong : Obligations.LoaderNamesWhatIsWrong := by
  intro p s
  refine ⟨fun f hf => ?_, fun r hr => ?_, fun hunknown hfits => ?_⟩
  · exact assembleProgram_fault (loadProgram_eq_fault_iff.mp hf)
  · refine (loadProgram_refused hr).imp_left fun hrefused => ?_
    obtain ⟨q, hq, -, hoperand⟩ := assembleProgram_refused hrefused
    exact ⟨q, hq, hoperand⟩
  · obtain ⟨f, hf⟩ := assembleProgram_isFault hunknown hfits
    exact ⟨f, loadProgram_eq_fault_iff.mpr hf⟩

/-- Settles O51: pair `k` is instruction `k` of the image, and each cell of the loaded machine is read
back from the image. -/
theorem loadedImage : Obligations.LoadedImage := by
  intro p t ht
  obtain ⟨is, his, -⟩ := loadProgram_next ht
  obtain ⟨-, -, -, hframe⟩ := loadProgram_reset ht his
  refine ⟨fun k q hq => ?_, loadProgram_reset_failsafe ht, fun x => loadProgram_reset_above ht,
    hframe⟩
  obtain ⟨m, hm, hk⟩ := getElem?_of_assembleProgram his hq
  have hbytes := loadProgram_reset_instr ht his hk
  rw [Mnemonic.mnemonic_instr, Mnemonic.operand_instr, lowByte_ofNat, highByte_ofNat] at hbytes
  exact ⟨m, hm, hbytes⟩

/-- Settles O54: the load goes through on a fresh instance, the pokes on the loaded one, and the run
because all these actions keep `Session.Good`. -/
theorem fullLifeOfAnInstanceGoesThrough : Obligations.FullLifeOfAnInstanceGoesThrough := by
  intro c p pokes n hp
  obtain ⟨t, ht⟩ := (loadProgram_isNext_iff p State.reset).mpr hp
  have hload : Session.fresh.act (.load p) = .next ⟨t, .loaded⟩ :=
    Session.act_load_eq_next_iff.mpr ⟨rfl, ht, rfl⟩
  obtain ⟨d, hpokes, hphase⟩ := Session.acts_pokes (c := ⟨t, .loaded⟩) rfl pokes
  have hgood : d.Good :=
    Session.acts_keep_good (Session.act_keeps_good Session.good_fresh hload) hpokes
  obtain ⟨c', hrun, hobserve⟩ := Session.act_run_isNext hgood (by simp [hphase]) n
  refine ⟨c', ?_, hobserve⟩
  have hstart : Session.acts [.reset, .load p] c = .next ⟨t, .loaded⟩ := by
    rw [Session.acts_cons rfl, Session.acts_cons hload, Session.acts]
  rw [Session.acts_append, Session.acts_append, hstart, andThen_next, hpokes, andThen_next,
    Session.acts_cons hrun, Session.acts]

end Sys2Proof.Machine
end

section
/-! SUPPORT. The halt and the decode fault as record updates (R16, R116, R130). -/

namespace Sys2Proof.Machine

theorem exec_hlt_eq (v : Operand) (s : State) :
    exec (.hlt v) s = .next { s with life := .halted } := by
  rw [exec_hlt, State.halt]

theorem State.takeUnknownOpcode_eq (s : State) (b : Byte) (x : Addr) :
    s.takeUnknownOpcode b x = { s with life := .faulted, fault := some ⟨b, x⟩ } := rfl

end Sys2Proof.Machine
end

section
/-! Settled: the two ways into a terminal state. -/

namespace Sys2Proof.Machine

/-- Settles O13: the record is taken on the state past the opcode byte, with the byte and the `PC`
before that advance. -/
theorem illegalOpcodeEntersFaulted : Obligations.IllegalOpcodeEntersFaulted := by
  intro s hs hbyte
  have hb := (Mnemonic.ofOpcode_eq_none_iff _).mpr hbyte
  rw [step_illegal hs hb, State.takeUnknownOpcode_eq, State.advance]

/-- Settles O28: the fetch changes `PC` only, so the step is `exec_hlt_eq` past the instruction. -/
theorem hltEntersHalted : Obligations.HltEntersHalted := by
  refine ⟨exec_hlt_eq, fun s lo hi hs hbytes => ?_⟩
  rw [step_bytes (m := .HLT) rfl hs hbytes, Mnemonic.instr, exec_hlt_eq, State.advance]

end Sys2Proof.Machine
end
